-- ==== Sys2Proof/Word.lean ====
section
/-! DEFINITION. The one word type of the core: a byte. -/

namespace Sys2Proof

/-- An unsigned 8-bit value: a tape cell (10_state.md R15), a program symbol
(30_encoding.md R50), a byte of the input or output stream (R17, R20). -/
abbrev Byte := BitVec 8

end Sys2Proof
end

