-- ==== Sys2Proof/Config.lean ====
section
/-! DEFINITION. The parameters of the core and of one run (00_scope.md R5). The
spec leaves no value undefined, so there is no free value here. -/

namespace Sys2Proof

/-- `N_t` of the machine as described (00_scope.md R5, 92_eei_decisions.md D2).
No rule depends on the value; the model takes `N_t` from the launch. -/
def Config.tapeCells : Nat := 30000

/-- The parameters of one run, fixed for its length (10_state.md R23): the
Program (`N_p` is its length), the number of tape cells `N_t`, and the input
bytes `INQ` the host supplies. -/
structure Launch where
  program  : List Byte
  tapeSize : Nat
  input    : List Byte
  deriving DecidableEq, Repr

/-- The launch of the Program of length 0 with no input on the machine as
described; legal by 92_eei_decisions.md D25. DESIGN CHOICE (log entry 2): what
`State.reset` is a reset to, since no program is the machine's own. -/
def Launch.empty : Launch where
  program  := []
  tapeSize := Config.tapeCells
  input    := []

end Sys2Proof
end

