-- ==== Sys2Proof/Syntax.lean ====
section
/-! DEFINITION. The nine operations of BF8, one constructor per row of
spec/opcode_table.json. No operation has an explicit operand (30_encoding.md
R51). -/

namespace Sys2Proof

/-- The operations of 30_encoding.md R52 and R53, under the source's names. -/
inductive Instr where
  /-- `>` (R75). -/
  | cursorRight
  /-- `<` (R76). -/
  | cursorLeft
  /-- `+` (R80). -/
  | cellIncrement
  /-- `-` (R81). -/
  | cellDecrement
  /-- `[` (R87). -/
  | loopOpen
  /-- `]` (R88). -/
  | loopClose
  /-- `,` (R100). -/
  | input
  /-- `.` (R101). -/
  | output
  /-- Any other symbol (R108). The argument is the table row's field `op`, the
  symbol itself; its value has no effect (DESIGN CHOICE, log entry 14). -/
  | nop (op : Byte)
  deriving DecidableEq, Repr

end Sys2Proof
end

