-- ==== Sys2Proof/WellFormed.lean ====
section
/-! DEFINITION. Which terms of `Instr` stand for a symbol, and which launches
the spec allows. -/

namespace Sys2Proof

/-- The eight symbols that are not no-operations, in R108's order. -/
def operationSymbols : List Byte :=
  [0x2B, 0x2C, 0x2D, 0x2E, 0x3C, 0x3E, 0x5B, 0x5D]

/-- A `nop` carries "any symbol `b` not in {0x2B, 0x2C, 0x2D, 0x2E, 0x3C, 0x3E,
0x5B, 0x5D}" (45_nop.md R108); the other operations have nothing to check. -/
def Instr.wf : Instr → Bool
  | .cursorRight => true
  | .cursorLeft => true
  | .cellIncrement => true
  | .cellDecrement => true
  | .loopOpen => true
  | .loopClose => true
  | .input => true
  | .output => true
  | .nop op => !operationSymbols.contains op

/-- `N_t >= 1` (00_scope.md R5); every Program and every input is legal
(20_memory.md R31, 70_reset_and_hazards.md R136). -/
def Launch.wf (l : Launch) : Bool := decide (1 ≤ l.tapeSize)

end Sys2Proof
end

