-- ==== Sys2Proof/Decode.lean ====
section
/-! DEFINITION. The decoder and the encoder (30_encoding.md). The values are the
ASCII codes the spec assigns (R52, which marks them as general knowledge;
log entry 5). -/

namespace Sys2Proof

/-- `>` (R52). -/
def opCursorRight : Byte := 0x3E
/-- `<` (R52). -/
def opCursorLeft : Byte := 0x3C
/-- `+` (R52). -/
def opCellIncrement : Byte := 0x2B
/-- `-` (R52). -/
def opCellDecrement : Byte := 0x2D
/-- `[` (R52). -/
def opLoopOpen : Byte := 0x5B
/-- `]` (R52). -/
def opLoopClose : Byte := 0x5D
/-- `,` (R52). -/
def opInput : Byte := 0x2C
/-- `.` (R52). -/
def opOutput : Byte := 0x2E

/-- `Decode(b)` of R54: total, every one of the 256 symbols has its operation. -/
def decodeByte (b : Byte) : Instr :=
  if b = opCursorRight then .cursorRight
  else if b = opCursorLeft then .cursorLeft
  else if b = opCellIncrement then .cellIncrement
  else if b = opCellDecrement then .cellDecrement
  else if b = opLoopOpen then .loopOpen
  else if b = opLoopClose then .loopClose
  else if b = opInput then .input
  else if b = opOutput then .output
  else .nop b

/-- Why a byte sequence holds no instruction. No symbol is rejected (R55); the
one thing that cannot be decoded is the absence of a symbol. -/
inductive DecodeError where
  /-- There is no symbol at or after the position. -/
  | endOfProgram
  deriving DecidableEq, Repr

/-- The instruction at the head of a byte sequence and the bytes after it; every
instruction is one symbol long (R50). -/
def decode : List Byte → Except DecodeError (Instr × List Byte)
  | [] => .error .endOfProgram
  | b :: rest => .ok (decodeByte b, rest)

/-- The symbol of an instruction, from the table of R52. -/
def encodeByte : Instr → Byte
  | .cursorRight => opCursorRight
  | .cursorLeft => opCursorLeft
  | .cellIncrement => opCellIncrement
  | .cellDecrement => opCellDecrement
  | .loopOpen => opLoopOpen
  | .loopClose => opLoopClose
  | .input => opInput
  | .output => opOutput
  | .nop op => op

/-- The bytes of an instruction: one symbol (R50). -/
def encode (i : Instr) : List Byte := [encodeByte i]

/-- The Program of a sequence of instructions: "Instruction `k` of the Program
is at position `k`" (R50, R56). -/
def assemble : List Instr → List Byte
  | [] => []
  | i :: is => encode i ++ assemble is

/-- The instructions of a Program, symbol by symbol (R50, R54). -/
def disassemble (bs : List Byte) : List Instr := bs.map decodeByte

/-- The one byte of an opcode-table row's word `w` of `nbits` bits; the bits
above `nbits` are 0. -/
def tableSymbol (nbits w : Nat) : Byte := BitVec.ofNat 8 (w % 2 ^ nbits)

/-- What the decoder reads from an opcode-table row's word. A word that needs
more than the 8 bits of a symbol is no instruction (log entry 15). -/
def decodeTableWord (nbits w : Nat) : Option Instr :=
  if w % 2 ^ nbits < 2 ^ 8 then
    match decode [tableSymbol nbits w] with
    | .ok (i, _) => some i
    | .error _ => none
  else none

end Sys2Proof
end

