-- ==== Sys2Proof/Machine/State.lean ====
section
/-! DEFINITION. The state of the core (10_state.md), its reset, and why a step
may have no next state. -/

namespace Sys2Proof.Machine

/-- The five kinds of fault (60_exceptions.md R110), in the order of their codes
1 to 5. Kind 2 is never raised (R112, R116). -/
inductive FaultKind where
  /-- Code 1: `dp` moved below 0, or an access at or beyond `N_t` (R111). -/
  | pointerOutOfRange
  /-- Code 2: a defensive kind, raised by no rule (R112). -/
  | instructionPointerOutOfRange
  /-- Code 3: loop-close, cell not zero, LoopStack empty (R113). -/
  | unmatchedLoopClose
  /-- Code 4: the forward scan reached the end of the Program (R114). -/
  | unterminatedLoop
  /-- Code 5: the input source has no byte (R115). -/
  | inputUnavailable
  deriving DecidableEq, Repr

/-- Sparse memory: (address, byte) pairs in one canonical form (`Memory.wf`). -/
abbrev Memory := List Host.Cell

/-- What an address that is not listed reads as: "all zero at creation"
(10_state.md R15, R24). -/
def Memory.unlisted : Byte := 0

/-- The canonical form: addresses strictly rising and no entry equal to what an
unlisted address reads as, so that equal memories are equal lists. -/
abbrev Memory.wf (m : Memory) : Prop :=
  m.Pairwise (fun c d => c.1 < d.1) ∧ ∀ c ∈ m, c.2 ≠ Memory.unlisted

/-- The architectural state `S = (ip, dp, tape, ls, out, fault, inq)` of R10 and
the two parameters of the run that a step reads (R23; log entry 1). -/
structure State where
  /-- InstructionPointer (R13). -/
  ip       : Nat
  /-- DataPointer (R11); it may be `N_t` or more. -/
  dp       : Nat
  /-- The Tape (R15). -/
  tape     : Memory
  /-- The LoopStack, bottom first (R16). -/
  ls       : List Nat
  /-- The OutputBuffer (R17). -/
  out      : List Byte
  /-- The fault register (R18); `none` is the spec's code 0, `None`. -/
  fault    : Option FaultKind
  /-- The input bytes not yet consumed, first to be consumed first (R20). -/
  inq      : List Byte
  /-- The Program; `N_p` is its length (20_memory.md R31). Written by no step. -/
  program  : List Byte
  /-- `N_t`, the number of tape cells (00_scope.md R5). Written by no step. -/
  tapeSize : Nat
  deriving DecidableEq, Repr

/-- `Reset(Program, N_p, N_t, INQ)` of 70_reset_and_hazards.md R135. -/
def State.resetWith (l : Launch) : State where
  ip       := 0
  dp       := 0
  tape     := []
  ls       := []
  out      := []
  fault    := none
  inq      := l.input
  program  := l.program
  tapeSize := l.tapeSize

/-- The machine right after reset with nothing launched: the reset of the empty
Program. It is Halted (R24, decision D25); a program comes to run by a launch
(log entry 2). -/
def State.reset : State := State.resetWith Launch.empty

/-- Why no step is enabled (40_execution_cycle.md R66). Raised by `step` only,
never by an instruction: an instruction that raises a fault of the spec has a
next state, with the fault register written (60_exceptions.md R117). -/
inductive Fault where
  /-- The run has ended successfully: `fault = 0` and `ip >= N_p` (R19, R69).
  Raised by `step` in a Halted state. Safe: the spec's machine takes no step. -/
  | halted
  /-- The run has ended with this fault (R19, R119). Raised by `step` in a
  Faulted state. Safe: the spec's machine takes no step until reset. -/
  | faulted (kind : FaultKind)
  deriving DecidableEq, Repr

/-- Why an instruction has no meaning in the model. -/
inductive Refusal where
  /-- Raised by an arm of `exec` whose instruction has no meaning yet; no arm is
  left so. Safe: nothing is claimed of a refused instruction. -/
  | notModelled (mnemonic : String)
  deriving DecidableEq, Repr

/-- What an instruction or a step answers. -/
abbrev StepOutcome := Host.Outcome State Fault Refusal

end Sys2Proof.Machine
end

