-- ==== Sys2Proof/Machine/LoopMatcher.lean ====
section
/-! DEFINITION. The LoopMatcher's forward scan (43_loop_control.md R89), and the
same scan as an engine of micro-steps (R90). -/

namespace Sys2Proof.Machine

/-- What one scanned symbol does to the nesting counter (R89): a loop-open adds
1, a loop-close subtracts 1, every other symbol leaves it alone. -/
def nestDepth (b : Byte) (depth : Nat) : Nat :=
  if b = opLoopOpen then depth + 1
  else if b = opLoopClose then depth - 1
  else depth

/-- The `repeat` of R89 over the symbols from position `sp` on. -/
def scan : List Byte → Nat → Nat → Except FaultKind Nat
  | [], _, _ => .error .unterminatedLoop
  | b :: rest, sp, depth =>
    if nestDepth b depth = 0 then .ok sp else scan rest (sp + 1) (nestDepth b depth)

/-- `MatchForward(o)` of R89: the position of the loop-close that matches a
loop-open at `o`, or the fault UnterminatedLoop. It does not look at the symbol
at `o` (91_not_in_source.md N11). For `o >= N_p`, where no step calls it and R89's
loop has no end, it is UnterminatedLoop (log entry 13). -/
def matchForward (program : List Byte) (o : Nat) : Except FaultKind Nat :=
  scan (program.drop (o + 1)) (o + 1) 1

/-- The engine's two working registers (10_state.md R21); no part of `State`. -/
structure ScanRegs where
  sp    : Nat
  depth : Nat
  deriving DecidableEq, Repr

/-- Where a scan stands after some micro-steps. -/
inductive ScanStatus where
  /-- Still scanning. -/
  | scanning (regs : ScanRegs)
  /-- `depth` reached 0 at this position. -/
  | found (c : Nat)
  /-- `sp = N_p`: UnterminatedLoop. -/
  | unterminated
  deriving DecidableEq, Repr

/-- The registers at the start of a scan from `o` (R90). -/
def scanStart (o : Nat) : ScanRegs := ⟨o + 1, 1⟩

/-- One micro-step: the body of the `repeat` of R89 (R90). -/
def scanMicroStep (program : List Byte) (r : ScanRegs) : ScanStatus :=
  match program[r.sp]? with
  | none => .unterminated
  | some b =>
    if nestDepth b r.depth = 0 then .found r.sp
    else .scanning ⟨r.sp + 1, nestDepth b r.depth⟩

/-- `n` micro-steps, fewer if the scan ends before. -/
def scanRun (program : List Byte) : Nat → ScanRegs → ScanStatus
  | 0, r => .scanning r
  | n + 1, r =>
    match scanMicroStep program r with
    | .scanning r' => scanRun program n r'
    | .found c => .found c
    | .unterminated => .unterminated

end Sys2Proof.Machine
end

