-- ==== Sys2Proof/Machine/Ops.lean ====
section
/-! DEFINITION. The pseudocode primitives of 00_scope.md R8 over the state: the
registers, the tape, the Program's read port, the LoopStack, the two I/O
boundaries, fault entry and the advance. -/

namespace Sys2Proof.Machine

/-! ### Register writes: `x <- v` of R8 -/

/-- `ip <- v`. -/
def State.setIp (s : State) (v : Nat) : State := { s with ip := v }
/-- `dp <- v`. -/
def State.setDp (s : State) (v : Nat) : State := { s with dp := v }
/-- The tape as a whole; only `memWrite` uses it. -/
def State.setTape (s : State) (v : Memory) : State := { s with tape := v }
/-- `ls <- v`. -/
def State.setLs (s : State) (v : List Nat) : State := { s with ls := v }
/-- `out <- v`. -/
def State.setOut (s : State) (v : List Byte) : State := { s with out := v }
/-- `fault <- v`. -/
def State.setFault (s : State) (v : Option FaultKind) : State := { s with fault := v }
/-- `inq <- v`. -/
def State.setInq (s : State) (v : List Byte) : State := { s with inq := v }
/-- The Program; used by the launch's stand-in `placeSymbol` only. -/
def State.setProgram (s : State) (v : List Byte) : State := { s with program := v }

/-! ### Fault codes and the run state -/

/-- The code of a fault kind (10_state.md R18). -/
def FaultKind.code : FaultKind → BitVec 3
  | .pointerOutOfRange => 1
  | .instructionPointerOutOfRange => 2
  | .unmatchedLoopClose => 3
  | .unterminatedLoop => 4
  | .inputUnavailable => 5

/-- The fault register as the host reads it (R18): 0 is no fault. -/
def State.faultCode (s : State) : BitVec 3 :=
  match s.fault with
  | none => 0
  | some k => k.code

/-- The three run states (R19). -/
inductive RunState where
  | running
  | halted
  | faulted (kind : FaultKind)
  deriving DecidableEq, Repr

/-- `RunState(S)` of R19, computed and not held. -/
def State.runState (s : State) : RunState :=
  match s.fault with
  | some k => .faulted k
  | none => if s.program.length ≤ s.ip then .halted else .running

/-! ### Fault entry and the advance -/

/-- `raise F` (60_exceptions.md R117): the fault register is written, everything
else keeps the value it has at this point, and the advance is not done. There is
no return from a fault (R119): only a reset, `State.resetWith`, leaves it. -/
def raise (k : FaultKind) (s : State) : StepOutcome := .next (s.setFault (some k))

/-- `ip <- ip + 1` (40_execution_cycle.md R68). -/
def advance (s : State) : State := s.setIp (s.ip + 1)

/-- The end of every step that did not fault: the advance (R67, R68). -/
def complete (s : State) : StepOutcome := .next (advance s)

/-! ### The tape -/

/-- The byte at an address of a sparse memory. -/
def Memory.read (m : Memory) (a : Nat) : Byte :=
  match m with
  | [] => Memory.unlisted
  | (k, v) :: rest => if k = a then v else Memory.read rest a

/-- A cell put before the first one of a higher address. -/
def Memory.insertCell (a : Nat) (v : Byte) (m : Memory) : Memory :=
  match m with
  | [] => [(a, v)]
  | (k, w) :: rest =>
    if a < k then (a, v) :: (k, w) :: rest else (k, w) :: Memory.insertCell a v rest

/-- A memory without the cell at an address. -/
def Memory.erase (m : Memory) (a : Nat) : Memory := m.filter (fun c => c.1 != a)

/-- A write keeps the canonical form: the value an unlisted address reads as
removes the entry. -/
def Memory.write (m : Memory) (a : Nat) (v : Byte) : Memory :=
  if v = Memory.unlisted then Memory.erase m a
  else Memory.insertCell a v (Memory.erase m a)

/-- `tape(a)` of R8: the value of cell `a`, with no check (10_state.md R15). -/
def State.cell (s : State) (a : Nat) : Byte := Memory.read s.tape a

/-- `MemRead(a, 1)` (20_memory.md R33). -/
def memRead (a : Nat) (s : State) : Except FaultKind Byte :=
  if s.tapeSize ≤ a then .error .pointerOutOfRange else .ok (s.cell a)

/-- `MemWrite(a, 1, v)` (20_memory.md R34). -/
def memWrite (a : Nat) (v : Byte) (s : State) : Except FaultKind State :=
  if s.tapeSize ≤ a then .error .pointerOutOfRange
  else .ok (s.setTape (Memory.write s.tape a v))

/-! ### The Program's read port -/

/-- `Prog(i)` (20_memory.md R31); `none` where the spec leaves it undefined,
`i >= N_p`, which no step asks for. -/
def State.prog (s : State) (i : Nat) : Option Byte := s.program[i]?

/-- The symbols from `ip` on: what the fetch gives the decoder (R67). -/
def State.fetchBytes (s : State) : List Byte := s.program.drop s.ip

/-- The Program with symbol `b` at position `ip`, no-op symbols 0x00 filling any
positions before it that the Program does not have, and no fault recorded: the
least that lets the next step fetch `b` (log entry 2). -/
def placeSymbol (b : Byte) (s : State) : State :=
  (s.setProgram (s.program.take s.ip ++ List.replicate (s.ip - s.program.length) 0
    ++ b :: s.program.drop (s.ip + 1))).setFault none

/-! ### The LoopStack (43_loop_control.md R91) -/

/-- `LsEmpty()`. -/
def lsEmpty (s : State) : Bool := s.ls.isEmpty

/-- `LsPush(p)`. -/
def lsPush (p : Nat) (s : State) : State := s.setLs (s.ls ++ [p])

/-- `LsTop()`; `none` on an empty stack, where R91 does not use it. -/
def lsTop (s : State) : Option Nat := s.ls.getLast?

/-- `LsPop()`; no effect on an empty stack (R91, R92). -/
def lsPop (s : State) : State := s.setLs s.ls.dropLast

/-! ### The input and output boundaries -/

/-- `InputNext()` (44_io.md R102): the byte and the state that has lost it. -/
def inputNext (s : State) : Except FaultKind (Byte × State) :=
  match s.inq with
  | [] => .error .inputUnavailable
  | b :: rest => .ok (b, s.setInq rest)

/-- `Emit(b)` (R103). -/
def emit (b : Byte) (s : State) : State := s.setOut (s.out ++ [b])

end Sys2Proof.Machine
end

