-- ==== Sys2Proof/Machine/Flags.lean ====
section
/-! DEFINITION. The arithmetic unit and the one condition. The core has no flags,
no condition codes and no predicate registers (10_state.md R22): the test reads
the cell itself, and the arithmetic (42_cell_arith.md R82) wraps and records
nothing. -/

namespace Sys2Proof.Machine

/-- `(v + 1) mod 256` (R80). -/
def cellSucc (v : Byte) : Byte := v + 1

/-- `(v + 255) mod 256` (R81). -/
def cellPred (v : Byte) : Byte := v + 255

/-- The test of loop-open and loop-close: "Tape.read(DataPointer) == 0" (R22). -/
def isZero (v : Byte) : Bool := v == 0

end Sys2Proof.Machine
end

