-- ==== Sys2Proof/Machine/Operands.lean ====
section
/-! DEFINITION. The one operand form of the tape: the cell at `dp`, with no
offset, no index and no change of `dp` (20_memory.md R32). Every instruction that
names a cell reads or writes it through these two operations. -/

namespace Sys2Proof.Machine

/-- The effective address of every tape access (R32). -/
def effectiveAddress (s : State) : Nat := s.dp

/-- `v <- MemRead(dp, 1)` followed by the rest of the instruction, which is not
done where the read raises (60_exceptions.md R117). -/
def readCell (s : State) (rest : Byte → StepOutcome) : StepOutcome :=
  match memRead (effectiveAddress s) s with
  | .error k => raise k s
  | .ok v => rest v

/-- `MemWrite(dp, 1, v)` as the last action of an instruction: the advance
follows where it does not raise. -/
def writeCell (v : Byte) (s : State) : StepOutcome :=
  match memWrite (effectiveAddress s) v s with
  | .error k => raise k s
  | .ok t => complete t

end Sys2Proof.Machine
end

