-- ==== Sys2Proof/Machine/CellArith.lean ====
section
/-! DEFINITION. Cell arithmetic (42_cell_arith.md). -/

namespace Sys2Proof.Machine

/-- cell-increment (R80). -/
def execCellIncrement (s : State) : StepOutcome :=
  readCell s fun v => writeCell (cellSucc v) s

/-- cell-decrement (R81). -/
def execCellDecrement (s : State) : StepOutcome :=
  readCell s fun v => writeCell (cellPred v) s

end Sys2Proof.Machine
end

