-- ==== Sys2Proof/Machine/CursorMove.lean ====
section
/-! DEFINITION. Cursor moves (41_cursor_move.md). -/

namespace Sys2Proof.Machine

/-- cursor-right (R75): it never faults, whatever `dp` becomes. -/
def execCursorRight (s : State) : StepOutcome := complete (s.setDp (s.dp + 1))

/-- cursor-left (R76): PointerOutOfRange exactly at `dp = 0`. -/
def execCursorLeft (s : State) : StepOutcome :=
  if s.dp = 0 then raise .pointerOutOfRange s else complete (s.setDp (s.dp - 1))

end Sys2Proof.Machine
end

