-- ==== Sys2Proof/Machine/InputOutput.lean ====
section
/-! DEFINITION. Input and output (44_io.md). -/

namespace Sys2Proof.Machine

/-- input (R100): the byte is taken first, so a write out of range faults with
the byte already consumed. -/
def execInput (s : State) : StepOutcome :=
  match inputNext s with
  | .error k => raise k s
  | .ok (b, t) => writeCell b t

/-- output (R101). -/
def execOutput (s : State) : StepOutcome :=
  readCell s fun v => complete (emit v s)

end Sys2Proof.Machine
end

