-- ==== Sys2Proof/Machine/LoopControl.lean ====
section
/-! DEFINITION. Loop control (43_loop_control.md). The scan is inside the one
step (decision D13). -/

namespace Sys2Proof.Machine

/-- loop-open (R87): a zero cell skips to the matching loop-close, any other
enters the loop. The advance then moves past what `ip` names (R68). -/
def execLoopOpen (s : State) : StepOutcome :=
  readCell s fun v =>
    if isZero v then
      match matchForward s.program s.ip with
      | .error k => raise k s
      | .ok c => complete (s.setIp c)
    else complete (lsPush s.ip s)

/-- loop-close (R88): a zero cell pops (no effect on an empty stack, R92), any
other jumps back to the top of the LoopStack, whose entry stays; the advance then
makes it the first symbol of the body (R68, 90_conflicts.md C1). -/
def execLoopClose (s : State) : StepOutcome :=
  readCell s fun v =>
    if isZero v then complete (lsPop s)
    else
      match lsTop s with
      | none => raise .unmatchedLoopClose s
      | some o => complete (s.setIp o)

end Sys2Proof.Machine
end

