-- ==== Sys2Proof/Machine/NoOperation.lean ====
section
/-! DEFINITION. The no-operation class (45_nop.md). -/

namespace Sys2Proof.Machine

/-- nop (R108): the whole effect is the advance, whatever the symbol. -/
def execNop (_op : Byte) (s : State) : StepOutcome := complete s

end Sys2Proof.Machine
end

