-- ==== Sys2Proof/Machine/Dispatch.lean ====
section
/-! DEFINITION. `Execute(op)` and the advance of 40_execution_cycle.md R67: one
arm per operation, each a call of that operation's meaning. -/

namespace Sys2Proof.Machine

def exec (i : Instr) (s : State) : Host.Outcome State Fault Refusal :=
  match i with
  | .cursorRight => Sys2Proof.Machine.execCursorRight s
  | .cursorLeft => Sys2Proof.Machine.execCursorLeft s
  | .cellIncrement => Sys2Proof.Machine.execCellIncrement s
  | .cellDecrement => Sys2Proof.Machine.execCellDecrement s
  | .loopOpen => Sys2Proof.Machine.execLoopOpen s
  | .loopClose => Sys2Proof.Machine.execLoopClose s
  | .input => Sys2Proof.Machine.execInput s
  | .output => Sys2Proof.Machine.execOutput s
  | .nop op => Sys2Proof.Machine.execNop op s

end Sys2Proof.Machine
end

