-- ==== Sys2Proof/Machine/Step.lean ====
section
/-! DEFINITION. One step of the Executor (40_execution_cycle.md R66, R67). -/

namespace Sys2Proof.Machine

/-- `Step(S)` of R67, enabled exactly where R66 says: with a fault recorded, or
with no symbol at `ip` (`ip >= N_p`), no step is enabled. -/
def step (s : State) : Host.Outcome State Fault Refusal :=
  match s.fault with
  | some k => .fault (.faulted k)
  | none =>
    match decode s.fetchBytes with
    | .error .endOfProgram => .fault .halted
    | .ok (i, _) => exec i s

/-- The state with an opcode-table row's word where the next step fetches: the
stand-in for the host's launch (log entry 2). -/
def State.withFetchWord (s : State) (nbits w : Nat) : State :=
  placeSymbol (tableSymbol nbits w) s

end Sys2Proof.Machine
end

