-- ==== Sys2Proof/Machine/Ports.lean ====
section
/-! DEFINITION. The two ports as abstract events (44_io.md R104, R105; decision
D14). The events of a step are a function of the state before it: R27 forbids a
record of them in the state (log entry 17). -/

namespace Sys2Proof.Machine

/-- An event at a port. -/
inductive PortEvent where
  /-- Core to host: an input instruction starts (R104). -/
  | inReq
  /-- Host to core: the byte that answers the request (R104). -/
  | inByte (b : Byte)
  /-- Host to core: no byte, "exhaustion/error" (R104). -/
  | inNone
  /-- Core to host: the byte an output instruction appended (R105). -/
  | outByte (b : Byte)
  deriving DecidableEq, Repr

/-- The answer of the queue model to a request (R104). -/
def inputAnswer (s : State) : PortEvent :=
  match s.inq with
  | [] => .inNone
  | b :: _ => .inByte b

/-- The events of one instruction, in order. -/
def instrEvents (i : Instr) (s : State) : List PortEvent :=
  match i with
  | .input => [.inReq, inputAnswer s]
  | .output =>
    match memRead (effectiveAddress s) s with
    | .error _ => []
    | .ok v => [.outByte v]
  | .cursorRight | .cursorLeft | .cellIncrement | .cellDecrement => []
  | .loopOpen | .loopClose | .nop _ => []

/-- The events of the step from `s`; none where no step is enabled. -/
def stepEvents (s : State) : List PortEvent :=
  match s.fault with
  | some _ => []
  | none =>
    match decode s.fetchBytes with
    | .error _ => []
    | .ok (i, _) => instrEvents i s

/-- The bytes of the `out_byte` events, in order. -/
def outBytes : List PortEvent → List Byte
  | [] => []
  | .outByte b :: es => b :: outBytes es
  | .inReq :: es => outBytes es
  | .inByte _ :: es => outBytes es
  | .inNone :: es => outBytes es

/-- The bytes of the `in_byte` events, in order. -/
def inBytes : List PortEvent → List Byte
  | [] => []
  | .inByte b :: es => b :: inBytes es
  | .inReq :: es => inBytes es
  | .inNone :: es => inBytes es
  | .outByte _ :: es => inBytes es

end Sys2Proof.Machine
end

