-- ==== Sys2Proof/Machine/HostSide.lean ====
section
/-! DEFINITION. The host's moves (70_reset_and_hazards.md R137): launch or
abandon, and what it reads at the end of a run. -/

namespace Sys2Proof.Machine

/-- Reset with a launch, in any run state (R135): the only way out of Halted and
Faulted. Nothing of the state before survives (R139). -/
def hostReset (l : Launch) (_before : State) : State := State.resetWith l

/-- The result of a run: `out` at a Halted state, nothing elsewhere (R138). -/
def State.result? (s : State) : Option (List Byte) :=
  match s.runState with
  | .halted => some s.out
  | .running => none
  | .faulted _ => none

/-- What the host gets at a Faulted state (R137, R117): `fault`, `ip`, `dp` and
`out` so far, which is no result (R118). -/
structure FailureReport where
  kind : FaultKind
  ip   : Nat
  dp   : Nat
  out  : List Byte
  deriving DecidableEq, Repr

/-- The failure report of a Faulted state. -/
def State.failure? (s : State) : Option FailureReport :=
  match s.runState with
  | .faulted k => some ⟨k, s.ip, s.dp, s.out⟩
  | .running => none
  | .halted => none

/-- `n` steps, fewer where a state is reached in which no step is enabled: an
executor "under fuel" (40_execution_cycle.md R71). -/
def stepsFor : Nat → State → State
  | 0, s => s
  | n + 1, s =>
    match step s with
    | .next t => stepsFor n t
    | .fault _ => s
    | .refused _ => s

/-- The port events of the first `n` steps, in order. -/
def runEvents : Nat → State → List PortEvent
  | 0, _ => []
  | n + 1, s =>
    match step s with
    | .next t => stepEvents s ++ runEvents n t
    | .fault _ => []
    | .refused _ => []

end Sys2Proof.Machine
end

