-- ==== Sys2Proof/Safety.lean ====
section
/-! DEFINITION. The terms claims are stated in: runs and their outcomes, the
invariants of 10_state.md R25, and the textual pairing of loop symbols of
43_loop_control.md R94. -/

namespace Sys2Proof.Machine

/-! ### Runs (40_execution_cycle.md R71) -/

/-- `t` is a later state of the run from `s`: some number of enabled steps. -/
inductive Reaches : State → State → Prop where
  | refl (s : State) : Reaches s s
  | tail {s t u : State} : Reaches s t → step t = .next u → Reaches s u

/-- The run from `s` halts with output `out` (R71, R138). -/
def HaltsWith (s : State) (out : List Byte) : Prop :=
  ∃ t, Reaches s t ∧ t.result? = some out

/-- The run from `s` ends in a fault with this report (R71). -/
def FaultsWith (s : State) (r : FailureReport) : Prop :=
  ∃ t, Reaches s t ∧ t.failure? = some r

/-- Every state of the run from `s` is Running (R71). -/
def Diverges (s : State) : Prop := ∀ t, Reaches s t → t.runState = .running

/-- A safe run: no state of it is Faulted. -/
def SafeRun (s : State) : Prop := ∀ t, Reaches s t → t.fault = none

/-- How many of the first `n` states of the run from `s`, `s` itself the first of
them, stand at program position `p`: how often the run starts an instruction at
`p` before its `n`-th step is done. -/
def visits (p : Nat) : Nat → State → Nat
  | 0, _ => 0
  | n + 1, s =>
    (if s.ip = p then 1 else 0) +
      match step s with
      | .next t => visits p n t
      | .fault _ => 0
      | .refused _ => 0

/-- The same instruction executed `k` times in a row. -/
def execTimes : Nat → Instr → State → StepOutcome
  | 0, _, s => .next s
  | k + 1, i, s =>
    match exec i s with
    | .next t => execTimes k i t
    | .fault r => .fault r
    | .refused r => .refused r

/-! ### The textual pairing of loop symbols (R94) -/

/-- The positions of the loop-opens still unpaired after reading these symbols
left to right, bottom first; the first symbol is at position `p`, and `st` holds
the ones unpaired before. "A loop-close pairs with the nearest unpaired loop-open
before it." -/
def unpairedFrom : List Byte → Nat → List Nat → List Nat
  | [], _, st => st
  | b :: rest, p, st =>
    unpairedFrom rest (p + 1)
      (if b = opLoopOpen then st ++ [p] else if b = opLoopClose then st.dropLast else st)

/-- The unpaired loop-opens among the symbols before position `k`. -/
def unpairedBefore (program : List Byte) (k : Nat) : List Nat :=
  unpairedFrom (program.take k) 0 []

/-- The loop-close at `c` is paired with the loop-open at `o`. -/
def Paired (program : List Byte) (o c : Nat) : Prop :=
  program[c]? = some opLoopClose ∧ (unpairedBefore program c).getLast? = some o

/-- A loop-close with no unpaired loop-open before it. -/
def Stray (program : List Byte) (c : Nat) : Prop :=
  program[c]? = some opLoopClose ∧ unpairedBefore program c = []

/-- A loop-open left unpaired at the end of the Program. -/
def OpenEnded (program : List Byte) (o : Nat) : Prop :=
  o ∈ unpairedBefore program program.length

/-- No stray and no open-ended symbol. -/
def Balanced (program : List Byte) : Prop :=
  (∀ c, ¬ Stray program c) ∧ ∀ o, ¬ OpenEnded program o

/-- `c` lies after `o` in the Program, and among the symbols at `o+1 .. c` the
loop-closes outnumber the loop-opens by exactly one (R89). -/
def ClosesOutnumberByOne (program : List Byte) (o c : Nat) : Prop :=
  o < c ∧ c < program.length ∧
  ((program.take (c + 1)).drop (o + 1)).count opLoopClose =
    ((program.take (c + 1)).drop (o + 1)).count opLoopOpen + 1

/-! ### Invariants (10_state.md R25) -/

/-- The invariants of R25, with the canonical form of the tape. `dpBound` is
stronger than R25 item 3 (`ip` for `N_p`), so that one step keeps it. -/
structure Inv (s : State) : Prop where
  tapeExists    : 1 ≤ s.tapeSize
  tapeCanonical : Memory.wf s.tape
  tapeInRange   : ∀ c ∈ s.tape, c.1 < s.tapeSize
  ipInProgram   : s.ip ≤ s.program.length
  dpBound       : s.dp ≤ s.tapeSize - 1 + s.ip
  lsRising      : s.ls.Pairwise (· < ·)
  lsBelowIp     : ∀ p ∈ s.ls, p < s.ip
  lsLoopOpens   : ∀ p ∈ s.ls, s.program[p]? = some opLoopOpen
  neverCodeTwo  : s.fault ≠ some .instructionPointerOutOfRange

/-- The LoopStack holds exactly the textually open loops at `ip` (R94). -/
def StackMatchesText (s : State) : Prop := s.ls = unpairedBefore s.program s.ip

end Sys2Proof.Machine
end

