-- ==== Sys2Proof/Certificates/Slice0/Obligations.lean ====
section
/-! DEFINITION. The statements for the provers. An instruction's result statement
is also its completion statement and its frame: it ends in an equation with
`.next`, and a field the equation does not name is unchanged. Where a statement
rests on a clause the spec marks as its own decision or derivation, its docstring
says so and its basis is 'derived'. -/

open Sys2Proof Sys2Proof.Machine

/-! ### Encoding -/

/-- The eight operations' symbols and the neighbours of every opcode, written out
bit by bit from the table of R52 and the ranges of R53. The values are marked by
the spec as general knowledge (D1, G1, G2; log entry 5). -/
def Obligations.OpcodeMapDecodes : Prop :=
  decode [0b00111110, 0] = .ok (.cursorRight, [0]) ∧
  decode [0b00111100, 0] = .ok (.cursorLeft, [0]) ∧
  decode [0b00101011, 0] = .ok (.cellIncrement, [0]) ∧
  decode [0b00101101, 0] = .ok (.cellDecrement, [0]) ∧
  decode [0b01011011, 0] = .ok (.loopOpen, [0]) ∧
  decode [0b01011101, 0] = .ok (.loopClose, [0]) ∧
  decode [0b00101100, 0] = .ok (.input, [0]) ∧
  decode [0b00101110, 0] = .ok (.output, [0]) ∧
  (∀ b ∈ ([0x00, 0x2A, 0x2F, 0x3B, 0x3D, 0x3F, 0x5A, 0x5C, 0x5E, 0xFF] : List Byte),
    decode [b] = .ok (.nop b, []))

/-- Every symbol decodes, whatever follows it, to a well-formed instruction (R55:
decoding never fails). That the instruction encodes back to that symbol, so that no
two symbols share one, is the model's: its `nop` carries the symbol, where R53 sends
248 symbols to one operation (DESIGN CHOICE, log entry 14). -/
def Obligations.EverySymbolDecodes : Prop :=
  ∀ (b : Byte) (rest : List Byte),
    ∃ i, i.wf = true ∧ encode i = [b] ∧ decode (b :: rest) = .ok (i, rest)

/-- Decode of encode is the identity on every well-formed instruction. -/
def Obligations.DecodeOfEncode : Prop :=
  ∀ (i : Instr) (rest : List Byte), i.wf = true → decode (encode i ++ rest) = .ok (i, rest)

/-- Assembling and disassembling whole Programs are inverse to each other, and
instruction `k` of a Program is the one at position `k` (R50, R56). -/
def Obligations.AssembleDisassembleInverse : Prop :=
  (∀ is : List Instr, (∀ i ∈ is, i.wf = true) → disassemble (assemble is) = is) ∧
  (∀ bs : List Byte, assemble (disassemble bs) = bs ∧ ∀ i ∈ disassemble bs, i.wf = true) ∧
  (∀ (is : List Instr) (k : Nat), (assemble is)[k]? = (is[k]?).map encodeByte)

/-! ### The instructions -/

/-- R75. The opcode value is also R52's, general knowledge by its mark (log
entry 5). -/
def Obligations.CursorRightResult : Prop :=
  decodeByte 0x3E = .cursorRight ∧
  ∀ s : State, exec .cursorRight s = .next { s with dp := s.dp + 1, ip := s.ip + 1 }

/-- R76: the fault exactly at `dp = 0`. The opcode value as in R52 (log entry 5). -/
def Obligations.CursorLeftResult : Prop :=
  decodeByte 0x3C = .cursorLeft ∧
  ∀ s : State,
    (0 < s.dp → exec .cursorLeft s = .next { s with dp := s.dp - 1, ip := s.ip + 1 }) ∧
    (s.dp = 0 → exec .cursorLeft s = .next { s with fault := some .pointerOutOfRange })

/-- R80: the one cell at `dp` becomes its value plus 1 modulo 256, every other
cell and every other component but `ip` is unchanged; outside the tape,
PointerOutOfRange and nothing else. The opcode value as in R52 (log entry 5). -/
def Obligations.CellIncrementResult : Prop :=
  decodeByte 0x2B = .cellIncrement ∧
  ∀ s : State,
    (s.dp < s.tapeSize → ∃ t, exec .cellIncrement s = .next t ∧
      (t.cell s.dp).toNat = ((s.cell s.dp).toNat + 1) % 256 ∧
      (∀ a, a ≠ s.dp → t.cell a = s.cell a) ∧
      t = { s with tape := t.tape, ip := s.ip + 1 }) ∧
    (s.tapeSize ≤ s.dp →
      exec .cellIncrement s = .next { s with fault := some .pointerOutOfRange })

/-- R81, in the same form as R80. The opcode value as in R52 (log entry 5). -/
def Obligations.CellDecrementResult : Prop :=
  decodeByte 0x2D = .cellDecrement ∧
  ∀ s : State,
    (s.dp < s.tapeSize → ∃ t, exec .cellDecrement s = .next t ∧
      (t.cell s.dp).toNat = ((s.cell s.dp).toNat + 255) % 256 ∧
      (∀ a, a ≠ s.dp → t.cell a = s.cell a) ∧
      t = { s with tape := t.tape, ip := s.ip + 1 }) ∧
    (s.tapeSize ≤ s.dp →
      exec .cellDecrement s = .next { s with fault := some .pointerOutOfRange })

/-- loop-open (R87), all four forms: out of range, skip, unterminated, entry. The
range check is the spec's decision D11 and its coming first D12 (log entry 11). -/
def Obligations.LoopOpenResult : Prop :=
  decodeByte 0x5B = .loopOpen ∧
  ∀ s : State,
    (s.tapeSize ≤ s.dp →
      exec .loopOpen s = .next { s with fault := some .pointerOutOfRange }) ∧
    (s.dp < s.tapeSize → s.cell s.dp = 0 →
      ∀ c, matchForward s.program s.ip = .ok c →
        exec .loopOpen s = .next { s with ip := c + 1 }) ∧
    (s.dp < s.tapeSize → s.cell s.dp = 0 →
      (∀ c, matchForward s.program s.ip ≠ .ok c) →
        exec .loopOpen s = .next { s with fault := some .unterminatedLoop }) ∧
    (s.dp < s.tapeSize → s.cell s.dp ≠ 0 →
      exec .loopOpen s = .next { s with ls := s.ls ++ [s.ip], ip := s.ip + 1 })

/-- loop-close (R88), all its forms: out of range, exit (with the LoopStack empty
too, where nothing but the advance happens), back-jump, unmatched. The range check
is the spec's decision D11, the harmless pop D10 (log entries 10, 11). -/
def Obligations.LoopCloseResult : Prop :=
  decodeByte 0x5D = .loopClose ∧
  ∀ s : State,
    (s.tapeSize ≤ s.dp →
      exec .loopClose s = .next { s with fault := some .pointerOutOfRange }) ∧
    (s.dp < s.tapeSize → s.cell s.dp = 0 → ∀ below o, s.ls = below ++ [o] →
      exec .loopClose s = .next { s with ls := below, ip := s.ip + 1 }) ∧
    (s.dp < s.tapeSize → s.cell s.dp = 0 → s.ls = [] →
      exec .loopClose s = .next { s with ip := s.ip + 1 }) ∧
    (s.dp < s.tapeSize → s.cell s.dp ≠ 0 → ∀ below o, s.ls = below ++ [o] →
      exec .loopClose s = .next { s with ip := o + 1 }) ∧
    (s.dp < s.tapeSize → s.cell s.dp ≠ 0 → s.ls = [] →
      exec .loopClose s = .next { s with fault := some .unmatchedLoopClose })

/-- input (R100), all its forms. The order of the two tests and the byte lost on
the second are the spec's decisions D12 and D9 (log entries 9, 11). -/
def Obligations.InputResult : Prop :=
  decodeByte 0x2C = .input ∧
  ∀ s : State,
    (s.inq = [] → exec .input s = .next { s with fault := some .inputUnavailable }) ∧
    (∀ b rest, s.inq = b :: rest → s.dp < s.tapeSize → ∃ t, exec .input s = .next t ∧
      t.cell s.dp = b ∧
      (∀ a, a ≠ s.dp → t.cell a = s.cell a) ∧
      t = { s with tape := t.tape, inq := rest, ip := s.ip + 1 }) ∧
    (∀ b rest, s.inq = b :: rest → s.tapeSize ≤ s.dp →
      exec .input s = .next { s with inq := rest, fault := some .pointerOutOfRange })

/-- R101: the cell's byte is appended to `out`; the cell is not changed. The
opcode value as in R52 (log entry 5). -/
def Obligations.OutputResult : Prop :=
  decodeByte 0x2E = .output ∧
  ∀ s : State,
    (s.dp < s.tapeSize →
      exec .output s = .next { s with out := s.out ++ [s.cell s.dp], ip := s.ip + 1 }) ∧
    (s.tapeSize ≤ s.dp →
      exec .output s = .next { s with fault := some .pointerOutOfRange })

/-- R108: every symbol that is not one of the eight is a no-operation, whose whole
effect is the advance, in every state. -/
def Obligations.NopResult : Prop :=
  (∀ b : Byte, b ∉ ([0x2B, 0x2C, 0x2D, 0x2E, 0x3C, 0x3E, 0x5B, 0x5D] : List Byte) →
    decodeByte b = .nop b) ∧
  ∀ (op : Byte) (s : State), exec (.nop op) s = .next { s with ip := s.ip + 1 }

/-- Where one instruction meets two fault conditions, the one its pseudocode tests
first is reported (R120, the spec's decision D12; log entry 11). -/
def Obligations.FaultPriority : Prop :=
  ∀ s : State, s.tapeSize ≤ s.dp →
    (s.inq = [] → exec .input s = .next { s with fault := some .inputUnavailable }) ∧
    ((∀ c, matchForward s.program s.ip ≠ .ok c) →
      exec .loopOpen s = .next { s with fault := some .pointerOutOfRange }) ∧
    (s.ls = [] → exec .loopClose s = .next { s with fault := some .pointerOutOfRange })

/-- The arithmetic laws of R82, items 1 to 4: `k` increments add `k` modulo 256,
`k` decrements take them away again, 256 of either change nothing, and none of it
faults or touches anything but the cell and `ip`. -/
def Obligations.RepeatedCellArithmetic : Prop :=
  ∀ (s : State) (k : Nat), s.dp < s.tapeSize →
    (∃ t, execTimes k .cellIncrement s = .next t ∧
      (t.cell s.dp).toNat = ((s.cell s.dp).toNat + k) % 256 ∧
      (∀ a, a ≠ s.dp → t.cell a = s.cell a) ∧
      t = { s with tape := t.tape, ip := s.ip + k } ∧
      ∃ u, execTimes k .cellDecrement t = .next u ∧ ∀ a, u.cell a = s.cell a) ∧
    (∃ t, execTimes k .cellDecrement s = .next t ∧
      (t.cell s.dp).toNat = ((s.cell s.dp).toNat + 255 * k) % 256 ∧
      (∀ a, a ≠ s.dp → t.cell a = s.cell a) ∧
      t = { s with tape := t.tape, ip := s.ip + k } ∧
      ∃ u, execTimes k .cellIncrement t = .next u ∧ ∀ a, u.cell a = s.cell a)

/-! ### The primitives -/

/-- R33 and R34: the two accesses, their one check, and increment and decrement as a
read and a write (of which `exec` gives the state after the advance). -/
def Obligations.TapeAccessPrimitives : Prop :=
  (∀ (a : Nat) (s : State),
    (s.tapeSize ≤ a → memRead a s = .error .pointerOutOfRange) ∧
    (a < s.tapeSize → memRead a s = .ok (s.cell a))) ∧
  (∀ (a : Nat) (v : Byte) (s : State),
    (s.tapeSize ≤ a → memWrite a v s = .error .pointerOutOfRange) ∧
    (a < s.tapeSize → ∃ t, memWrite a v s = .ok t ∧ t.cell a = v ∧
      (∀ b, b ≠ a → t.cell b = s.cell b) ∧ t = { s with tape := t.tape })) ∧
  (∀ (s : State) (v : Byte), memRead s.dp s = .ok v →
    (∃ t, memWrite s.dp (v + 1) s = .ok t ∧
      exec .cellIncrement s = .next { t with ip := t.ip + 1 }) ∧
    (∃ t, memWrite s.dp (v + 255) s = .ok t ∧
      exec .cellDecrement s = .next { t with ip := t.ip + 1 }))

/-- After any sequence of writes from the reset tape, a cell reads as its latest
write, or 0 if there was none (20_memory.md section 6). The first clause, that the
list which holds the tape is in canonical form, is the model's own representation
and no rule of the spec (DESIGN CHOICE, log entry 16). -/
def Obligations.LatestWriteIsRead : Prop :=
  ∀ (writes : List (Nat × Byte)),
    let m := writes.foldl (fun m w => Memory.write m w.1 w.2) []
    Memory.wf m ∧
    ∀ a, Memory.read m a = ((writes.reverse.find? (fun w => w.1 == a)).map Prod.snd).getD 0

/-- Canonical tapes that read the same at every address are the same list, so the
tape is the function of R10 and nothing more (log entry 16). -/
def Obligations.EqualReadsEqualTapes : Prop :=
  ∀ m m' : Memory, Memory.wf m → Memory.wf m' →
    (∀ a, Memory.read m a = Memory.read m' a) → m = m'

/-- The four operations on the LoopStack (43_loop_control.md section 3); the pop
of an empty stack is the spec's decision D10 (log entry 10). -/
def Obligations.LoopStackOperations : Prop :=
  ∀ s : State,
    (lsEmpty s = true ↔ s.ls = []) ∧
    (∀ p, lsPush p s = { s with ls := s.ls ++ [p] }) ∧
    (∀ below p, s.ls = below ++ [p] → lsTop s = some p ∧ lsPop s = { s with ls := below }) ∧
    (s.ls = [] → lsPop s = s) ∧
    (∀ p, lsTop (lsPush p s) = some p ∧ lsPop (lsPush p s) = s)

/-- One request at the input boundary (R102, the spec's decision D9; log entry
9): the bytes come in the order of the queue, each once. -/
def Obligations.InputNextTakesTheHead : Prop :=
  ∀ s : State,
    (s.inq = [] → inputNext s = .error .inputUnavailable) ∧
    (∀ b rest, s.inq = b :: rest → inputNext s = .ok (b, { s with inq := rest }))

/-- R103: one byte is appended and nothing fails; no step but an output's changes
`out`; and no instruction reads it: with any `out` at all, the instruction does
the same to everything else and appends the same bytes. -/
def Obligations.OutputBufferIsAppendOnly : Prop :=
  (∀ (b : Byte) (s : State), emit b s = { s with out := s.out ++ [b] }) ∧
  (∀ s t : State, step s = .next t → t.out ≠ s.out →
    s.prog s.ip = some opOutput ∧ s.dp < s.tapeSize ∧ t.out = s.out ++ [s.cell s.dp]) ∧
  (∀ (i : Instr) (s : State), ∃ (t : State) (added : List Byte), ∀ o : List Byte,
    exec i { s with out := o } = .next { t with out := o ++ added })

/-! ### The forward scan -/

/-- R89, "said without the loop": the scan returns the least such position, and
raises UnterminatedLoop exactly where there is none. -/
def Obligations.ScanReturnsLeastBalancingClose : Prop :=
  ∀ (program : List Byte) (o : Nat), o < program.length →
    (∀ c, matchForward program o = .ok c ↔
      ClosesOutnumberByOne program o c ∧
      ∀ c', c' < c → ¬ ClosesOutnumberByOne program o c') ∧
    (matchForward program o = .error .unterminatedLoop ↔
      ∀ c, ¬ ClosesOutnumberByOne program o c)

/-- R90: the engine of micro-steps finds what `MatchForward` returns after exactly
`c - o` of them, having read position `o + 1 + n` at the `n`-th; and where the scan
fails it reads the `N_p - o - 1` symbols after `o` and then finds `sp = N_p`. The
engine's registers are no state (the spec's decisions D13, D23; log entry 12). -/
def Obligations.ScanEngineMatchesScan : Prop :=
  ∀ (program : List Byte) (o : Nat), o < program.length →
    (∀ c, matchForward program o = .ok c →
      scanRun program (c - o) (scanStart o) = .found c ∧
      ∀ n, n < c - o → ∃ d, 1 ≤ d ∧ scanRun program n (scanStart o) = .scanning ⟨o + 1 + n, d⟩) ∧
    (matchForward program o = .error .unterminatedLoop →
      scanRun program (program.length - o) (scanStart o) = .unterminated ∧
      ∀ n, n < program.length - o →
        ∃ d, 1 ≤ d ∧ scanRun program n (scanStart o) = .scanning ⟨o + 1 + n, d⟩)

/-- For a loop-open at `o`, the scan returns the loop-close the text pairs it with,
and fails exactly where the text leaves it unpaired (43_loop_control.md section 4,
items 2 and 4, which the spec derives). -/
def Obligations.ScanFindsTextualPartner : Prop :=
  ∀ (program : List Byte) (o : Nat),
    (∀ c, Paired program o c ↔
      program[o]? = some opLoopOpen ∧ matchForward program o = .ok c) ∧
    (OpenEnded program o ↔
      program[o]? = some opLoopOpen ∧ matchForward program o = .error .unterminatedLoop)

/-! ### The step -/

/-- The step runs exactly the instruction the bytes at `ip` decode to; `exec`
holds the advance too (40_execution_cycle.md section 3, decision D13; log entry
8). -/
def Obligations.StepRunsDecodedInstruction : Prop :=
  (∀ (s : State) (i : Instr) (rest : List Byte), s.fault = none →
    decode s.fetchBytes = .ok (i, rest) → step s = exec i s) ∧
  (∀ (s : State) (b : Byte), s.fault = none → s.prog s.ip = some b →
    step s = exec (decodeByte b) s)

/-- R66: a step is enabled exactly in a Running state, and it then has one next
state; a state that is not Running never changes again. -/
def Obligations.StepEnabledExactlyWhenRunning : Prop :=
  ∀ s : State,
    (s.runState = .running ↔ s.fault = none ∧ s.ip < s.program.length) ∧
    ((∃ t, step s = .next t) ↔ s.runState = .running) ∧
    (s.runState ≠ .running → ∀ t, Reaches s t → t = s)

/-- What the model's `step` answers where no step is enabled: a stop that names the
run state (DESIGN CHOICE, log entry 3). -/
def Obligations.NoStepNamesTheRunState : Prop :=
  ∀ s : State,
    (s.runState = .halted ↔ step s = .fault .halted) ∧
    (∀ k, s.runState = .faulted k ↔ step s = .fault (.faulted k))

/-- R68: the table of `ip` after a step that did not fault. -/
def Obligations.AdvanceAfterEveryInstruction : Prop :=
  ∀ s t : State, step s = .next t → t.fault = none →
    (∀ c, s.prog s.ip = some opLoopOpen → s.cell s.dp = 0 →
      matchForward s.program s.ip = .ok c → t.ip = c + 1) ∧
    (∀ below o, s.prog s.ip = some opLoopClose → s.cell s.dp ≠ 0 →
      s.ls = below ++ [o] → t.ip = o + 1) ∧
    (¬ (s.prog s.ip = some opLoopOpen ∧ s.cell s.dp = 0) →
      ¬ (s.prog s.ip = some opLoopClose ∧ s.cell s.dp ≠ 0) → t.ip = s.ip + 1)

/-- R70: an input that faults with PointerOutOfRange has consumed exactly one input
byte and changed nothing else but `fault`; every other step that faults has changed
nothing but `fault`. In both, `ip` stays at the faulting instruction. -/
def Obligations.FaultingStepIsPrecise : Prop :=
  ∀ (s t : State) (k : FaultKind), step s = .next t → t.fault = some k →
    (s.prog s.ip = some opInput ∧ k = .pointerOutOfRange →
      ∃ b rest, s.inq = b :: rest ∧ t = { s with inq := rest, fault := some k }) ∧
    (¬ (s.prog s.ip = some opInput ∧ k = .pointerOutOfRange) →
      t = { s with fault := some k })

/-- R113, R114: exactly when a step raises each of the two loop faults; with a zero
cell and an empty stack there is none. -/
def Obligations.LoopFaultCauses : Prop :=
  ∀ s t : State, step s = .next t →
    (t.fault = some .unmatchedLoopClose ↔
      s.prog s.ip = some opLoopClose ∧ s.dp < s.tapeSize ∧ s.cell s.dp ≠ 0 ∧ s.ls = []) ∧
    (t.fault = some .unterminatedLoop ↔
      s.prog s.ip = some opLoopOpen ∧ s.dp < s.tapeSize ∧ s.cell s.dp = 0 ∧
        ∀ c, matchForward s.program s.ip ≠ .ok c)

/-- Exactly when a step raises PointerOutOfRange and InputUnavailable; code 2 is
never raised; so cursor-right and nop never fault (60_exceptions.md section 1, with
the spec's decisions D11 for the loop instructions, D12 for input, D9 for the queue,
and its derivation for code 2; log entries 9, 11). -/
def Obligations.PointerAndInputFaultCauses : Prop :=
  ∀ s t : State, step s = .next t →
    (t.fault = some .pointerOutOfRange ↔
      (s.prog s.ip = some opCursorLeft ∧ s.dp = 0) ∨
      (s.tapeSize ≤ s.dp ∧
        (s.prog s.ip = some opCellIncrement ∨ s.prog s.ip = some opCellDecrement ∨
          s.prog s.ip = some opOutput ∨ s.prog s.ip = some opLoopOpen ∨
          s.prog s.ip = some opLoopClose ∨ (s.prog s.ip = some opInput ∧ s.inq ≠ [])))) ∧
    (t.fault = some .inputUnavailable ↔ s.prog s.ip = some opInput ∧ s.inq = []) ∧
    t.fault ≠ some .instructionPointerOutOfRange

/-- R119: a fault ends the run; no instruction reads or clears the register (what
an instruction does is the same whatever it holds); only a reset leaves a Faulted
state, and it starts from a fresh tape. -/
def Obligations.FaultIsFinal : Prop :=
  (∀ (s : State) (k : FaultKind), s.fault = some k →
    (∀ t, step s ≠ .next t) ∧ ∀ t, Reaches s t → t = s) ∧
  (∀ (i : Instr) (s : State), ∃ t : State,
    (∀ f, exec i { s with fault := f } = .next { t with fault := f }) ∨
    (∃ k, ∀ f, exec i { s with fault := f } = .next { t with fault := some k })) ∧
  (∀ (l : Launch) (s : State),
    (hostReset l s).fault = none ∧ (hostReset l s).ip = 0 ∧ ∀ a, (hostReset l s).cell a = 0)

/-- The frame of a step over every kind of state: which instructions may change
each component, and that at most the cell at `dp` changes (20_memory.md sections 1
and 2, 10_state.md sections 2, 4, 5, 6, 8, 11). -/
def Obligations.WhoWritesWhat : Prop :=
  ∀ s t : State, step s = .next t →
    (t.dp ≠ s.dp → s.prog s.ip = some opCursorRight ∨ s.prog s.ip = some opCursorLeft) ∧
    (t.ls ≠ s.ls → s.prog s.ip = some opLoopOpen ∨ s.prog s.ip = some opLoopClose) ∧
    (t.out ≠ s.out → s.prog s.ip = some opOutput) ∧
    (t.inq ≠ s.inq → s.prog s.ip = some opInput) ∧
    (∀ a, t.cell a ≠ s.cell a → a = s.dp ∧ a < s.tapeSize ∧
      (s.prog s.ip = some opCellIncrement ∨ s.prog s.ip = some opCellDecrement ∨
        s.prog s.ip = some opInput)) ∧
    t.program = s.program ∧ t.tapeSize = s.tapeSize

/-! ### Runs -/

/-- The Program and `N_t` are the same at every step of a run (10_state.md section
11, 20_memory.md section 6). -/
def Obligations.RunKeepsTheLaunch : Prop :=
  ∀ s t : State, Reaches s t → t.program = s.program ∧ t.tapeSize = s.tapeSize

/-- Over a run `out` only grows, at its end, and `inq` only shrinks, at its front
(10_state.md section 13 item 5, which the spec derives). -/
def Obligations.StreamsAreMonotone : Prop :=
  ∀ s t : State, Reaches s t → s.out <+: t.out ∧ t.inq <:+ s.inq

/-- A run is one line of states, of which one is later than the other
(40_execution_cycle.md section 6, which the spec derives); and the core reads no
input ahead (44_io.md section 3): a run that has not yet asked for a byte there was
not goes the same way, state by state, with any bytes put behind the input, and
leaves those bytes alone. -/
def Obligations.RunIsLinearAndReadsNoInputAhead : Prop :=
  (∀ s t u : State, Reaches s t → Reaches s u → Reaches t u ∨ Reaches u t) ∧
  (∀ (s t : State) (extra : List Byte), Reaches s t → t.fault ≠ some .inputUnavailable →
    Reaches { s with inq := s.inq ++ extra } { t with inq := t.inq ++ extra })

/-- The executor under fuel reaches the states of the run and no others
(40_execution_cycle.md section 6). -/
def Obligations.FuelRunsAreTheRun : Prop :=
  ∀ s t : State, Reaches s t ↔ ∃ n, stepsFor n s = t

/-- A run from any state has exactly one of the three outcomes, and the first two
at most once; a run is safe exactly when it does not fault (40_execution_cycle.md
section 6, the spec's decision D26). -/
def Obligations.EveryRunHasOneOutcome : Prop :=
  ∀ s : State,
    ((∃ o, HaltsWith s o) ∨ (∃ r, FaultsWith s r) ∨ Diverges s) ∧
    (∀ o r, HaltsWith s o → ¬ FaultsWith s r) ∧
    (∀ o, HaltsWith s o → ¬ Diverges s) ∧
    (∀ r, FaultsWith s r → ¬ Diverges s) ∧
    (∀ o o', HaltsWith s o → HaltsWith s o' → o = o') ∧
    (∀ r r', FaultsWith s r → FaultsWith s r' → r = r') ∧
    (SafeRun s ↔ ∀ r, ¬ FaultsWith s r)

/-- What the port events say of a run: the `out_byte` events are what was added to
`out`, and the `in_byte` events what was taken from `inq`, in order (44_io.md
section 3, the spec's decision D14; log entry 17). -/
def Obligations.PortEventsMatchTheStreams : Prop :=
  ∀ (n : Nat) (s : State),
    (stepsFor n s).out = s.out ++ outBytes (runEvents n s) ∧
    s.inq = inBytes (runEvents n s) ++ (stepsFor n s).inq

/-- A Program of no-op symbols halts after exactly `N_p` steps with nothing changed
but `ip` (45_nop.md, which the spec derives; the empty Program is among them). -/
def Obligations.NopProgramsHalt : Prop :=
  ∀ l : Launch, (∀ b ∈ l.program, b ∉ operationSymbols) →
    (∀ n, n ≤ l.program.length →
      stepsFor n (State.resetWith l) = { State.resetWith l with ip := n }) ∧
    HaltsWith (State.resetWith l) []

/-! ### Reset and the host -/

/-- Every component after a reset, in any state before it (10_state.md section 12;
`fault` and `inq` are the spec's decisions D6 and D9, reset as an event D15). -/
def Obligations.ResetValues : Prop :=
  ∀ (l : Launch) (before : State),
    let s := hostReset l before
    s.ip = 0 ∧ s.dp = 0 ∧ (∀ a, s.cell a = 0) ∧ s.ls = [] ∧ s.out = [] ∧
    s.fault = none ∧ s.faultCode = 0 ∧ s.inq = l.input ∧
    s.program = l.program ∧ s.tapeSize = l.tapeSize ∧
    (s.runState = .running ↔ 0 < l.program.length) ∧
    (s.runState = .halted ↔ l.program.length = 0)

/-- R139: nothing of one run is visible to the next: what a reset leaves, and so
every state of the run after it, is the same whatever the state before. -/
def Obligations.RunsDoNotCommunicate : Prop :=
  ∀ (l : Launch) (before before' t : State),
    Reaches (hostReset l before) t ↔ Reaches (hostReset l before') t

/-- `State.reset` is the reset of the empty Program on a tape of 30000 cells with
no input, so it is Halted (DESIGN CHOICE, log entry 2). -/
def Obligations.ResetMachineIsHalted : Prop :=
  State.reset = State.resetWith ⟨[], 30000, []⟩ ∧
  State.reset.runState = .halted ∧ State.reset.result? = some [] ∧
  step State.reset = .fault .halted

/-- The step after `withFetchWord` runs the word's instruction, in any state, and
nothing but the Program and a recorded fault is changed for it (the model's own,
log entry 2). -/
def Obligations.FetchWordIsRunNext : Prop :=
  ∀ (s : State) (w : Nat), w < 256 →
    let p := s.withFetchWord 8 w
    p = { s with program := p.program, fault := none } ∧
    ∃ i, decodeTableWord 8 w = some i ∧ i.wf = true ∧ step p = exec i p

/-- What the host reads: a result at a Halted state and at no other, whatever the
LoopStack, the queue and `dp` are; a report at a Faulted state and at no other,
with the code of its kind (70_reset_and_hazards.md section 3, 40_execution_cycle.md
section 4; the spec's decisions D6, D7, D17). -/
def Obligations.HostReadsTheEnd : Prop :=
  ∀ s : State, s.ip ≤ s.program.length →
    (∀ o, s.result? = some o ↔ s.fault = none ∧ s.ip = s.program.length ∧ o = s.out) ∧
    (∀ r, s.failure? = some r ↔ s.fault = some r.kind ∧ r.ip = s.ip ∧ r.dp = s.dp ∧ r.out = s.out) ∧
    (s.fault = none ↔ s.faultCode = 0) ∧
    (∀ k, s.fault = some k ↔ s.faultCode = k.code)

/-! ### Invariants -/

/-- Every legal launch starts in a state that meets the invariants, the values of
10_state.md section 12. The canonical form of the tape, one of them, is the model's
representation (DESIGN CHOICE, log entry 16); the launch of `State.reset`, of which
the second clause speaks, is the model's too (DESIGN CHOICE, log entry 2). -/
def Obligations.InvariantHoldsAtReset : Prop :=
  (∀ l : Launch, l.wf = true → Inv (State.resetWith l)) ∧ Inv State.reset

/-- Every step keeps the invariants, from every state that meets them: `ip` within
the Program, the bound on `dp`, the LoopStack a rising sequence of loop-open
positions below `ip`, and no code 2, which the spec derives (10_state.md section
13); and the model's own: the tape's canonical form (DESIGN CHOICE, log entry 16),
and `1 ≤ N_t` as a condition on the state (log entry 6). -/
def Obligations.StepKeepsInvariant : Prop :=
  ∀ s t : State, Inv s → step s = .next t → Inv t

/-- The invariants of 10_state.md section 13, items 1 to 3 and 6, in every state of
every legal run (the spec derives them). -/
def Obligations.ReachableStatesMeetTheBounds : Prop :=
  ∀ (l : Launch) (s : State), l.wf = true → Reaches (State.resetWith l) s →
    s.ip ≤ l.program.length ∧
    s.ls.Pairwise (· < ·) ∧
    (∀ p ∈ s.ls, p < s.ip ∧ l.program[p]? = some opLoopOpen) ∧
    s.ls.length ≤ l.program.count opLoopOpen ∧
    s.dp ≤ l.tapeSize - 1 + l.program.length ∧
    s.fault ≠ some .instructionPointerOutOfRange

/-- At reset the LoopStack holds the loops open at position 0: none. -/
def Obligations.StackMatchesTextAtReset : Prop :=
  ∀ l : Launch, StackMatchesText (State.resetWith l)

/-- From every state in which the LoopStack holds exactly the textually open loops
at `ip`, so does the state after a step, for every Program, balanced or not
(43_loop_control.md section 4, which the spec derives). -/
def Obligations.StepKeepsStackMatchingText : Prop :=
  ∀ s t : State, StackMatchesText s → step s = .next t → StackMatchesText t

/-- A paired loop-close that executes has its own partner on top of the LoopStack:
its back-jump goes to the partner's body and its exit removes the partner
(43_loop_control.md section 4 item 1, which the spec derives). -/
def Obligations.PairedCloseUsesItsPartner : Prop :=
  ∀ (s : State) (o : Nat), StackMatchesText s → s.fault = none → s.dp < s.tapeSize →
    Paired s.program o s.ip →
    ∃ below, s.ls = below ++ [o] ∧
      (s.cell s.dp ≠ 0 → step s = .next { s with ip := o + 1 }) ∧
      (s.cell s.dp = 0 → step s = .next { s with ls := below, ip := s.ip + 1 })

/-- A stray loop-close faults on a non-zero cell and does nothing on a zero one
(43_loop_control.md section 4 item 3, which the spec derives; decision D10). -/
def Obligations.StrayCloseFaultsOrDoesNothing : Prop :=
  ∀ s : State, StackMatchesText s → s.fault = none → s.dp < s.tapeSize →
    Stray s.program s.ip →
    s.ls = [] ∧
    (s.cell s.dp ≠ 0 → step s = .next { s with fault := some .unmatchedLoopClose }) ∧
    (s.cell s.dp = 0 → step s = .next { s with ip := s.ip + 1 })

/-- An open-ended loop-open that has been entered is never popped and never jumped
back to, and `ip` stays above it for the rest of the run (43_loop_control.md
section 4 item 4, which the spec derives). -/
def Obligations.OpenEndedEntryStays : Prop :=
  ∀ (s t : State) (o : Nat), StackMatchesText s → OpenEnded s.program o → o ∈ s.ls →
    Reaches s t →
    o ∈ t.ls ∧ o < t.ip ∧
    ∀ u, step t = .next u → u.fault = none → o + 1 < u.ip

/-- A Program whose loop symbols pair up raises neither loop fault, whatever its
input, and if it halts it halts with an empty LoopStack (43_loop_control.md section
4 item 5, which the spec derives). -/
def Obligations.BalancedRunsHaveNoLoopFaults : Prop :=
  ∀ (l : Launch) (s : State), Balanced l.program → Reaches (State.resetWith l) s →
    s.fault ≠ some .unmatchedLoopClose ∧ s.fault ≠ some .unterminatedLoop ∧
    (s.runState = .halted → s.ls = [])

/-- A counted loop (43_loop_control.md section 4, the second loop property, which
the spec derives). The body of a paired loop, from every state of the run that
begins a pass at its first symbol, comes to the loop-close for the first time with
`dp = d`, the same stack, no fault and the cell at `d` lowered by 1 modulo 256. Then
the loop entered with `v` in the cell comes to `c + 1` with 0 in it, and until then
runs exactly `v` passes: the first body symbol and the loop-close are each started
exactly `v` times (so `v = 0` runs no pass), the passes beginning with each of the
values `v`, `v - 1`, down to 1. -/
def Obligations.CountedLoopRunsItsPasses : Prop :=
  ∀ (s : State) (o c d : Nat), Paired s.program o c → s.ip = o → s.dp = d →
    d < s.tapeSize → s.fault = none →
    (∀ u : State, Reaches s u → u.ip = o + 1 → u.dp = d → u.ls = s.ls ++ [o] →
      u.fault = none →
      ∃ w m, stepsFor m u = w ∧ visits c m u = 0 ∧ w.ip = c ∧ w.dp = d ∧
        w.ls = s.ls ++ [o] ∧ w.fault = none ∧
        (w.cell d).toNat = ((u.cell d).toNat + 255) % 256) →
    ∃ n t, stepsFor n s = t ∧ t.ip = c + 1 ∧ t.dp = d ∧ t.ls = s.ls ∧ t.fault = none ∧
      t.cell d = 0 ∧
      visits (o + 1) n s = (s.cell d).toNat ∧ visits c n s = (s.cell d).toNat ∧
      ∀ k, k < (s.cell d).toNat → ∃ u, Reaches s u ∧ Reaches u t ∧ u.ip = o + 1 ∧
        u.dp = d ∧ u.ls = s.ls ++ [o] ∧ (u.cell d).toNat = (s.cell d).toNat - k
end

