-- ==== Sys2Proof/Laws/Decode.lean ====
section
/-! SUPPORT. Small lemmas of the decoder and the encoder. -/

namespace Sys2Proof

@[simp] theorem decode_nil : decode [] = .error .endOfProgram := rfl

@[simp] theorem decode_cons (b : Byte) (rest : List Byte) :
    decode (b :: rest) = .ok (decodeByte b, rest) := rfl

@[simp] theorem encode_eq (i : Instr) : encode i = [encodeByte i] := rfl

@[simp] theorem assemble_cons (i : Instr) (is : List Instr) :
    assemble (i :: is) = encodeByte i :: assemble is := rfl

/-- Every symbol decodes to an instruction that encodes to it. -/
theorem encodeByte_decodeByte (b : Byte) : encodeByte (decodeByte b) = b := by
  unfold decodeByte
  repeat' split
  all_goals first | rfl | (next h => exact h.symm)

end Sys2Proof
end

