-- ==== Sys2Proof/Laws/LoopMatcher.lean ====
section
/-! SUPPORT. What the forward scan can answer. -/

namespace Sys2Proof.Machine

@[simp] theorem nestDepth_open (d : Nat) : nestDepth opLoopOpen d = d + 1 := rfl

@[simp] theorem nestDepth_close (d : Nat) : nestDepth opLoopClose d = d - 1 := by
  have h : opLoopClose ≠ opLoopOpen := by decide
  simp [nestDepth, h]

theorem nestDepth_other {b : Byte} (ho : b ≠ opLoopOpen) (hc : b ≠ opLoopClose) (d : Nat) :
    nestDepth b d = d := by simp [nestDepth, ho, hc]

/-- A scan that returns, returns a position of the symbols it was given. -/
theorem scan_ok_bounds {bs : List Byte} {sp d c : Nat} (h : scan bs sp d = .ok c) :
    sp ≤ c ∧ c < sp + bs.length := by
  induction bs generalizing sp d with
  | nil => simp [scan] at h
  | cons b bs ih =>
    simp only [scan] at h
    split at h
    · cases h
      simp
    · have := ih h
      simp only [List.length_cons]
      omega

/-- The one fault a scan raises. -/
theorem scan_error {bs : List Byte} {sp d : Nat} {k : FaultKind} (h : scan bs sp d = .error k) :
    k = .unterminatedLoop := by
  induction bs generalizing sp d with
  | nil => simpa [scan] using h.symm
  | cons b bs ih =>
    simp only [scan] at h
    split at h
    · cases h
    · exact ih h

/-- A scan from a depth of at least 1 ends on a loop-close. -/
theorem scan_ok_close {bs : List Byte} {sp d c : Nat} (hd : 1 ≤ d) (h : scan bs sp d = .ok c) :
    bs[c - sp]? = some opLoopClose := by
  induction bs generalizing sp d with
  | nil => simp [scan] at h
  | cons b bs ih =>
    simp only [scan] at h
    split at h
    · next h0 =>
      cases h
      by_cases ho : b = opLoopOpen
      · simp [ho] at h0
      · by_cases hc : b = opLoopClose
        · simp [hc]
        · rw [nestDepth_other ho hc] at h0
          omega
    · next h0 =>
      have hb := scan_ok_bounds h
      have := ih (by omega) h
      have hc : c - sp = (c - (sp + 1)) + 1 := by omega
      rw [hc]
      simpa using this

/-- The match of a loop-open at `o` is a loop-close of the Program after it. -/
theorem matchForward_ok {program : List Byte} {o c : Nat} (h : matchForward program o = .ok c) :
    o < c ∧ c < program.length ∧ program[c]? = some opLoopClose := by
  have hb := scan_ok_bounds h
  have hc := scan_ok_close (le_refl 1) h
  rw [List.length_drop] at hb
  refine ⟨by omega, by omega, ?_⟩
  rw [List.getElem?_drop] at hc
  have : o + 1 + (c - (o + 1)) = c := by omega
  rwa [this] at hc

theorem matchForward_error {program : List Byte} {o : Nat} {k : FaultKind}
    (h : matchForward program o = .error k) : k = .unterminatedLoop := scan_error h

end Sys2Proof.Machine
end

