-- ==== Sys2Proof/Laws/State.lean ====
section
/-! SUPPORT. The registers after each named write: one lemma per field per write,
all by `rfl`, so that no proof unfolds a record update. -/

namespace Sys2Proof.Machine

variable (s : State)

/-! ### `setIp` -/

@[simp] theorem State.setIp_ip (v : Nat) : (s.setIp v).ip = v := rfl
@[simp] theorem State.setIp_dp (v : Nat) : (s.setIp v).dp = s.dp := rfl
@[simp] theorem State.setIp_tape (v : Nat) : (s.setIp v).tape = s.tape := rfl
@[simp] theorem State.setIp_ls (v : Nat) : (s.setIp v).ls = s.ls := rfl
@[simp] theorem State.setIp_out (v : Nat) : (s.setIp v).out = s.out := rfl
@[simp] theorem State.setIp_fault (v : Nat) : (s.setIp v).fault = s.fault := rfl
@[simp] theorem State.setIp_inq (v : Nat) : (s.setIp v).inq = s.inq := rfl
@[simp] theorem State.setIp_program (v : Nat) : (s.setIp v).program = s.program := rfl
@[simp] theorem State.setIp_tapeSize (v : Nat) : (s.setIp v).tapeSize = s.tapeSize := rfl
@[simp] theorem State.setIp_cell (v : Nat) (a : Nat) : (s.setIp v).cell a = s.cell a := rfl

/-! ### `setDp` -/

@[simp] theorem State.setDp_ip (v : Nat) : (s.setDp v).ip = s.ip := rfl
@[simp] theorem State.setDp_dp (v : Nat) : (s.setDp v).dp = v := rfl
@[simp] theorem State.setDp_tape (v : Nat) : (s.setDp v).tape = s.tape := rfl
@[simp] theorem State.setDp_ls (v : Nat) : (s.setDp v).ls = s.ls := rfl
@[simp] theorem State.setDp_out (v : Nat) : (s.setDp v).out = s.out := rfl
@[simp] theorem State.setDp_fault (v : Nat) : (s.setDp v).fault = s.fault := rfl
@[simp] theorem State.setDp_inq (v : Nat) : (s.setDp v).inq = s.inq := rfl
@[simp] theorem State.setDp_program (v : Nat) : (s.setDp v).program = s.program := rfl
@[simp] theorem State.setDp_tapeSize (v : Nat) : (s.setDp v).tapeSize = s.tapeSize := rfl
@[simp] theorem State.setDp_cell (v : Nat) (a : Nat) : (s.setDp v).cell a = s.cell a := rfl

/-! ### `setTape` -/

@[simp] theorem State.setTape_ip (v : Memory) : (s.setTape v).ip = s.ip := rfl
@[simp] theorem State.setTape_dp (v : Memory) : (s.setTape v).dp = s.dp := rfl
@[simp] theorem State.setTape_tape (v : Memory) : (s.setTape v).tape = v := rfl
@[simp] theorem State.setTape_ls (v : Memory) : (s.setTape v).ls = s.ls := rfl
@[simp] theorem State.setTape_out (v : Memory) : (s.setTape v).out = s.out := rfl
@[simp] theorem State.setTape_fault (v : Memory) : (s.setTape v).fault = s.fault := rfl
@[simp] theorem State.setTape_inq (v : Memory) : (s.setTape v).inq = s.inq := rfl
@[simp] theorem State.setTape_program (v : Memory) : (s.setTape v).program = s.program := rfl
@[simp] theorem State.setTape_tapeSize (v : Memory) : (s.setTape v).tapeSize = s.tapeSize := rfl

/-! ### `setLs` -/

@[simp] theorem State.setLs_ip (v : List Nat) : (s.setLs v).ip = s.ip := rfl
@[simp] theorem State.setLs_dp (v : List Nat) : (s.setLs v).dp = s.dp := rfl
@[simp] theorem State.setLs_tape (v : List Nat) : (s.setLs v).tape = s.tape := rfl
@[simp] theorem State.setLs_ls (v : List Nat) : (s.setLs v).ls = v := rfl
@[simp] theorem State.setLs_out (v : List Nat) : (s.setLs v).out = s.out := rfl
@[simp] theorem State.setLs_fault (v : List Nat) : (s.setLs v).fault = s.fault := rfl
@[simp] theorem State.setLs_inq (v : List Nat) : (s.setLs v).inq = s.inq := rfl
@[simp] theorem State.setLs_program (v : List Nat) : (s.setLs v).program = s.program := rfl
@[simp] theorem State.setLs_tapeSize (v : List Nat) : (s.setLs v).tapeSize = s.tapeSize := rfl
@[simp] theorem State.setLs_cell (v : List Nat) (a : Nat) : (s.setLs v).cell a = s.cell a := rfl

/-! ### `setOut` -/

@[simp] theorem State.setOut_ip (v : List Byte) : (s.setOut v).ip = s.ip := rfl
@[simp] theorem State.setOut_dp (v : List Byte) : (s.setOut v).dp = s.dp := rfl
@[simp] theorem State.setOut_tape (v : List Byte) : (s.setOut v).tape = s.tape := rfl
@[simp] theorem State.setOut_ls (v : List Byte) : (s.setOut v).ls = s.ls := rfl
@[simp] theorem State.setOut_out (v : List Byte) : (s.setOut v).out = v := rfl
@[simp] theorem State.setOut_fault (v : List Byte) : (s.setOut v).fault = s.fault := rfl
@[simp] theorem State.setOut_inq (v : List Byte) : (s.setOut v).inq = s.inq := rfl
@[simp] theorem State.setOut_program (v : List Byte) : (s.setOut v).program = s.program := rfl
@[simp] theorem State.setOut_tapeSize (v : List Byte) : (s.setOut v).tapeSize = s.tapeSize := rfl
@[simp] theorem State.setOut_cell (v : List Byte) (a : Nat) : (s.setOut v).cell a = s.cell a := rfl

/-! ### `setFault` -/

@[simp] theorem State.setFault_ip (v : Option FaultKind) : (s.setFault v).ip = s.ip := rfl
@[simp] theorem State.setFault_dp (v : Option FaultKind) : (s.setFault v).dp = s.dp := rfl
@[simp] theorem State.setFault_tape (v : Option FaultKind) : (s.setFault v).tape = s.tape := rfl
@[simp] theorem State.setFault_ls (v : Option FaultKind) : (s.setFault v).ls = s.ls := rfl
@[simp] theorem State.setFault_out (v : Option FaultKind) : (s.setFault v).out = s.out := rfl
@[simp] theorem State.setFault_fault (v : Option FaultKind) : (s.setFault v).fault = v := rfl
@[simp] theorem State.setFault_inq (v : Option FaultKind) : (s.setFault v).inq = s.inq := rfl
@[simp] theorem State.setFault_program (v : Option FaultKind) : (s.setFault v).program = s.program := rfl
@[simp] theorem State.setFault_tapeSize (v : Option FaultKind) : (s.setFault v).tapeSize = s.tapeSize := rfl
@[simp] theorem State.setFault_cell (v : Option FaultKind) (a : Nat) : (s.setFault v).cell a = s.cell a := rfl

/-! ### `setInq` -/

@[simp] theorem State.setInq_ip (v : List Byte) : (s.setInq v).ip = s.ip := rfl
@[simp] theorem State.setInq_dp (v : List Byte) : (s.setInq v).dp = s.dp := rfl
@[simp] theorem State.setInq_tape (v : List Byte) : (s.setInq v).tape = s.tape := rfl
@[simp] theorem State.setInq_ls (v : List Byte) : (s.setInq v).ls = s.ls := rfl
@[simp] theorem State.setInq_out (v : List Byte) : (s.setInq v).out = s.out := rfl
@[simp] theorem State.setInq_fault (v : List Byte) : (s.setInq v).fault = s.fault := rfl
@[simp] theorem State.setInq_inq (v : List Byte) : (s.setInq v).inq = v := rfl
@[simp] theorem State.setInq_program (v : List Byte) : (s.setInq v).program = s.program := rfl
@[simp] theorem State.setInq_tapeSize (v : List Byte) : (s.setInq v).tapeSize = s.tapeSize := rfl
@[simp] theorem State.setInq_cell (v : List Byte) (a : Nat) : (s.setInq v).cell a = s.cell a := rfl

/-! ### `setProgram` -/

@[simp] theorem State.setProgram_ip (v : List Byte) : (s.setProgram v).ip = s.ip := rfl
@[simp] theorem State.setProgram_dp (v : List Byte) : (s.setProgram v).dp = s.dp := rfl
@[simp] theorem State.setProgram_tape (v : List Byte) : (s.setProgram v).tape = s.tape := rfl
@[simp] theorem State.setProgram_ls (v : List Byte) : (s.setProgram v).ls = s.ls := rfl
@[simp] theorem State.setProgram_out (v : List Byte) : (s.setProgram v).out = s.out := rfl
@[simp] theorem State.setProgram_fault (v : List Byte) : (s.setProgram v).fault = s.fault := rfl
@[simp] theorem State.setProgram_inq (v : List Byte) : (s.setProgram v).inq = s.inq := rfl
@[simp] theorem State.setProgram_program (v : List Byte) : (s.setProgram v).program = v := rfl
@[simp] theorem State.setProgram_tapeSize (v : List Byte) : (s.setProgram v).tapeSize = s.tapeSize := rfl
@[simp] theorem State.setProgram_cell (v : List Byte) (a : Nat) : (s.setProgram v).cell a = s.cell a := rfl

/-! ### The advance -/

@[simp] theorem advance_ip : (advance s).ip = s.ip + 1 := rfl
@[simp] theorem advance_dp : (advance s).dp = s.dp := rfl
@[simp] theorem advance_tape : (advance s).tape = s.tape := rfl
@[simp] theorem advance_ls : (advance s).ls = s.ls := rfl
@[simp] theorem advance_out : (advance s).out = s.out := rfl
@[simp] theorem advance_fault : (advance s).fault = s.fault := rfl
@[simp] theorem advance_inq : (advance s).inq = s.inq := rfl
@[simp] theorem advance_program : (advance s).program = s.program := rfl
@[simp] theorem advance_tapeSize : (advance s).tapeSize = s.tapeSize := rfl
@[simp] theorem advance_cell (a : Nat) : (advance s).cell a = s.cell a := rfl

/-! ### Reset -/

@[simp] theorem State.resetWith_ip (l : Launch) : (State.resetWith l).ip = 0 := rfl
@[simp] theorem State.resetWith_dp (l : Launch) : (State.resetWith l).dp = 0 := rfl
@[simp] theorem State.resetWith_tape (l : Launch) : (State.resetWith l).tape = [] := rfl
@[simp] theorem State.resetWith_ls (l : Launch) : (State.resetWith l).ls = [] := rfl
@[simp] theorem State.resetWith_out (l : Launch) : (State.resetWith l).out = [] := rfl
@[simp] theorem State.resetWith_fault (l : Launch) : (State.resetWith l).fault = none := rfl
@[simp] theorem State.resetWith_inq (l : Launch) : (State.resetWith l).inq = l.input := rfl
@[simp] theorem State.resetWith_program (l : Launch) : (State.resetWith l).program = l.program := rfl
@[simp] theorem State.resetWith_tapeSize (l : Launch) : (State.resetWith l).tapeSize = l.tapeSize := rfl

end Sys2Proof.Machine
end

