-- ==== Sys2Proof/Laws/Memory.lean ====
section
/-! SUPPORT. The laws of the sparse memory: read after write, and the canonical
form, which every operation keeps. -/

namespace Sys2Proof.Machine

@[simp] theorem Memory.read_nil (a : Nat) : Memory.read [] a = Memory.unlisted := rfl

theorem Memory.read_cons (k : Nat) (v : Byte) (m : Memory) (a : Nat) :
    Memory.read ((k, v) :: m) a = if k = a then v else Memory.read m a := rfl

/-- An address no entry names reads as unlisted. -/
theorem Memory.read_of_not_listed (m : Memory) (a : Nat) (h : ∀ c ∈ m, c.1 ≠ a) :
    Memory.read m a = Memory.unlisted := by
  induction m with
  | nil => rfl
  | cons c m ih =>
    obtain ⟨k, v⟩ := c
    have hk : k ≠ a := h (k, v) (by simp)
    simp only [Memory.read_cons, hk, if_false]
    exact ih fun c hc => h c (by simp [hc])

theorem Memory.read_erase (m : Memory) (a b : Nat) :
    Memory.read (Memory.erase m a) b = if b = a then Memory.unlisted else Memory.read m b := by
  induction m with
  | nil => simp [Memory.erase]
  | cons c m ih =>
    obtain ⟨k, v⟩ := c
    simp only [Memory.erase] at ih
    by_cases hk : k = a
    · simp only [Memory.erase, hk, List.filter_cons, bne_self_eq_false, Bool.false_eq_true,
        if_false, ih, Memory.read_cons]
      grind
    · simp only [Memory.erase, List.filter_cons, bne_iff_ne, ne_eq, hk, not_false_eq_true,
        if_true, Memory.read_cons, ih]
      grind

theorem Memory.read_insertCell (m : Memory) (a : Nat) (v : Byte) (b : Nat)
    (h : ∀ c ∈ m, c.1 ≠ a) :
    Memory.read (Memory.insertCell a v m) b = if b = a then v else Memory.read m b := by
  induction m with
  | nil => simp [Memory.insertCell, Memory.read_cons, eq_comm]
  | cons c m ih =>
    obtain ⟨k, w⟩ := c
    have hk : k ≠ a := h (k, w) (by simp)
    have ih := ih fun c hc => h c (by simp [hc])
    simp only [Memory.insertCell]
    split <;> simp only [Memory.read_cons, ih] <;> grind

/-- No entry of an erased memory names the erased address. -/
theorem Memory.erase_not_listed (m : Memory) (a : Nat) : ∀ c ∈ Memory.erase m a, c.1 ≠ a := by
  intro c hc
  have := (List.mem_filter.mp hc).2
  simpa using this

/-- A write changes the byte at its address and no other. -/
theorem Memory.read_write (m : Memory) (a : Nat) (v : Byte) (b : Nat) :
    Memory.read (Memory.write m a v) b = if b = a then v else Memory.read m b := by
  unfold Memory.write
  split
  · next h => rw [Memory.read_erase, h]
  · rw [Memory.read_insertCell _ _ _ _ (Memory.erase_not_listed m a), Memory.read_erase]
    grind

@[simp] theorem Memory.read_write_same (m : Memory) (a : Nat) (v : Byte) :
    Memory.read (Memory.write m a v) a = v := by simp [Memory.read_write]

theorem Memory.read_write_other (m : Memory) (a : Nat) (v : Byte) (b : Nat) (h : b ≠ a) :
    Memory.read (Memory.write m a v) b = Memory.read m b := by simp [Memory.read_write, h]

/-- The entries of a memory after a write: the written one, if it is listed, and
those of the other addresses. -/
theorem Memory.mem_insertCell (m : Memory) (a : Nat) (v : Byte) (c : Host.Cell) :
    c ∈ Memory.insertCell a v m ↔ c = (a, v) ∨ c ∈ m := by
  induction m with
  | nil => simp [Memory.insertCell]
  | cons d m ih =>
    obtain ⟨k, w⟩ := d
    simp only [Memory.insertCell]
    split
    · simp
    · simp only [List.mem_cons, ih]
      tauto

theorem Memory.mem_write (m : Memory) (a : Nat) (v : Byte) (c : Host.Cell)
    (h : c ∈ Memory.write m a v) : c = (a, v) ∨ c ∈ m := by
  unfold Memory.write at h
  split at h
  · exact .inr (List.mem_filter.mp h).1
  · rcases (Memory.mem_insertCell _ _ _ _).mp h with h | h
    · exact .inl h
    · exact .inr (List.mem_filter.mp h).1

theorem Memory.wf_nil : Memory.wf [] := ⟨List.Pairwise.nil, by simp⟩

theorem Memory.wf_erase (m : Memory) (a : Nat) (h : Memory.wf m) :
    Memory.wf (Memory.erase m a) :=
  ⟨h.1.filter _, fun c hc => h.2 c (List.mem_filter.mp hc).1⟩

theorem Memory.wf_insertCell (m : Memory) (a : Nat) (v : Byte) (hv : v ≠ Memory.unlisted)
    (h : Memory.wf m) (ha : ∀ c ∈ m, c.1 ≠ a) : Memory.wf (Memory.insertCell a v m) := by
  refine ⟨?_, ?_⟩
  · have hp := h.1
    clear h
    induction m with
    | nil => simp [Memory.insertCell]
    | cons d m ih =>
      obtain ⟨k, w⟩ := d
      rw [List.pairwise_cons] at hp
      have hk : k ≠ a := ha (k, w) (by simp)
      simp only [Memory.insertCell]
      split
      · next hlt =>
        refine List.pairwise_cons.mpr ⟨?_, List.pairwise_cons.mpr hp⟩
        intro c hc
        rcases List.mem_cons.mp hc with rfl | hc
        · exact hlt
        · exact lt_trans hlt (hp.1 c hc)
      · next hge =>
        refine List.pairwise_cons.mpr ⟨?_, ih (fun c hc => ha c (by simp [hc])) hp.2⟩
        intro c hc
        rcases (Memory.mem_insertCell _ _ _ _).mp hc with rfl | hc
        · exact lt_of_le_of_ne (not_lt.mp hge) hk
        · exact hp.1 c hc
  · intro c hc
    rcases (Memory.mem_insertCell _ _ _ _).mp hc with rfl | hc
    · exact hv
    · exact h.2 c hc

/-- Every write keeps the canonical form. -/
theorem Memory.wf_write (m : Memory) (a : Nat) (v : Byte) (h : Memory.wf m) :
    Memory.wf (Memory.write m a v) := by
  unfold Memory.write
  split
  · exact Memory.wf_erase m a h
  · next hv =>
    exact Memory.wf_insertCell _ a v hv (Memory.wf_erase m a h) (Memory.erase_not_listed m a)

/-- Memory at reset is in canonical form. -/
theorem reset_tape_wf (l : Launch) : Memory.wf (State.resetWith l).tape := Memory.wf_nil

@[simp] theorem State.setTape_cell (s : State) (m : Memory) (a : Nat) :
    (s.setTape m).cell a = Memory.read m a := rfl

@[simp] theorem State.resetWith_cell (l : Launch) (a : Nat) : (State.resetWith l).cell a = 0 := rfl

end Sys2Proof.Machine
end

