-- ==== Sys2Proof/Laws/Ops.lean ====
section
/-! SUPPORT. One lemma per shared operation, saying once everything it can do. -/

namespace Sys2Proof.Machine

theorem raise_eq (k : FaultKind) (s : State) : raise k s = .next (s.setFault (some k)) := rfl

theorem complete_eq (s : State) : complete s = .next (advance s) := rfl

theorem memRead_of_lt {a : Nat} {s : State} (h : a < s.tapeSize) : memRead a s = .ok (s.cell a) := by
  simp [memRead, Nat.not_le.mpr h]

theorem memRead_of_le {a : Nat} {s : State} (h : s.tapeSize ≤ a) :
    memRead a s = .error .pointerOutOfRange := by simp [memRead, h]

theorem memWrite_of_lt {a : Nat} {s : State} (v : Byte) (h : a < s.tapeSize) :
    memWrite a v s = .ok (s.setTape (Memory.write s.tape a v)) := by
  simp [memWrite, Nat.not_le.mpr h]

theorem memWrite_of_le {a : Nat} {s : State} (v : Byte) (h : s.tapeSize ≤ a) :
    memWrite a v s = .error .pointerOutOfRange := by simp [memWrite, h]

/-- The rest of an instruction runs on the cell at `dp` where that cell exists. -/
theorem readCell_of_lt {s : State} (rest : Byte → StepOutcome) (h : s.dp < s.tapeSize) :
    readCell s rest = rest (s.cell s.dp) := by
  simp [readCell, effectiveAddress, memRead_of_lt h]

/-- PointerOutOfRange where it does not. -/
theorem readCell_of_le {s : State} (rest : Byte → StepOutcome) (h : s.tapeSize ≤ s.dp) :
    readCell s rest = .next (s.setFault (some .pointerOutOfRange)) := by
  simp [readCell, effectiveAddress, memRead_of_le h, raise_eq]

/-- Everything `readCell` can answer. -/
theorem readCell_cases {s t : State} {rest : Byte → StepOutcome} (h : readCell s rest = .next t) :
    (s.tapeSize ≤ s.dp ∧ t = s.setFault (some .pointerOutOfRange)) ∨
    (s.dp < s.tapeSize ∧ rest (s.cell s.dp) = .next t) := by
  rcases Nat.lt_or_ge s.dp s.tapeSize with hd | hd
  · rw [readCell_of_lt rest hd] at h
    exact .inr ⟨hd, h⟩
  · rw [readCell_of_le rest hd] at h
    cases h
    exact .inl ⟨hd, rfl⟩

theorem writeCell_of_lt {s : State} (v : Byte) (h : s.dp < s.tapeSize) :
    writeCell v s = .next (advance (s.setTape (Memory.write s.tape s.dp v))) := by
  simp [writeCell, effectiveAddress, memWrite_of_lt v h, complete_eq]

theorem writeCell_of_le {s : State} (v : Byte) (h : s.tapeSize ≤ s.dp) :
    writeCell v s = .next (s.setFault (some .pointerOutOfRange)) := by
  simp [writeCell, effectiveAddress, memWrite_of_le v h, raise_eq]

/-- Everything `writeCell` can answer. -/
theorem writeCell_cases {s t : State} {v : Byte} (h : writeCell v s = .next t) :
    (s.tapeSize ≤ s.dp ∧ t = s.setFault (some .pointerOutOfRange)) ∨
    (s.dp < s.tapeSize ∧ t = advance (s.setTape (Memory.write s.tape s.dp v))) := by
  rcases Nat.lt_or_ge s.dp s.tapeSize with hd | hd
  · rw [writeCell_of_lt v hd] at h
    cases h
    exact .inr ⟨hd, rfl⟩
  · rw [writeCell_of_le v hd] at h
    cases h
    exact .inl ⟨hd, rfl⟩

theorem isZero_iff (v : Byte) : isZero v = true ↔ v = 0 := by simp [isZero]

theorem isZero_false_iff (v : Byte) : isZero v = false ↔ v ≠ 0 := by simp [isZero]

theorem isZero_of_eq {v : Byte} (h : v = 0) : isZero v = true := (isZero_iff v).mpr h

theorem isZero_of_ne {v : Byte} (h : v ≠ 0) : isZero v = false := (isZero_false_iff v).mpr h

theorem cellSucc_toNat (v : Byte) : (cellSucc v).toNat = (v.toNat + 1) % 256 := by
  simp [cellSucc, BitVec.toNat_add]

theorem cellPred_toNat (v : Byte) : (cellPred v).toNat = (v.toNat + 255) % 256 := by
  simp [cellPred, BitVec.toNat_add]

theorem inputNext_of_nil {s : State} (h : s.inq = []) :
    inputNext s = .error .inputUnavailable := by simp [inputNext, h]

theorem inputNext_of_cons {s : State} {b : Byte} {rest : List Byte} (h : s.inq = b :: rest) :
    inputNext s = .ok (b, s.setInq rest) := by simp [inputNext, h]

@[simp] theorem lsPush_eq (p : Nat) (s : State) : lsPush p s = s.setLs (s.ls ++ [p]) := rfl

@[simp] theorem lsPop_eq (s : State) : lsPop s = s.setLs s.ls.dropLast := rfl

@[simp] theorem lsTop_eq (s : State) : lsTop s = s.ls.getLast? := rfl

@[simp] theorem emit_eq (b : Byte) (s : State) : emit b s = s.setOut (s.out ++ [b]) := rfl

/-- The run state is Running exactly with no fault and a symbol at `ip`. -/
theorem runState_running_iff (s : State) :
    s.runState = .running ↔ s.fault = none ∧ s.ip < s.program.length := by
  unfold State.runState
  cases s.fault <;> simp

theorem runState_halted_iff (s : State) :
    s.runState = .halted ↔ s.fault = none ∧ s.program.length ≤ s.ip := by
  unfold State.runState
  cases s.fault <;> simp

theorem runState_faulted_iff (s : State) (k : FaultKind) :
    s.runState = .faulted k ↔ s.fault = some k := by
  unfold State.runState
  cases s.fault with
  | none => simp; split <;> simp
  | some k' => simp

end Sys2Proof.Machine
end

