-- ==== Sys2Proof/Laws/Exec.lean ====
section
/-! SUPPORT. What each instruction can do: one inversion lemma per meaning ("if it
answers `next t`, one of these cases holds"), which proofs about steps cite. -/

namespace Sys2Proof.Machine

variable {s t : State}

theorem execCursorRight_cases (h : execCursorRight s = .next t) :
    t = advance (s.setDp (s.dp + 1)) := (Host.Outcome.next.inj h).symm

theorem execCursorLeft_cases (h : execCursorLeft s = .next t) :
    (s.dp = 0 ∧ t = s.setFault (some .pointerOutOfRange)) ∨
    (0 < s.dp ∧ t = advance (s.setDp (s.dp - 1))) := by
  unfold execCursorLeft at h
  split at h
  · next h0 => exact .inl ⟨h0, (Host.Outcome.next.inj h).symm⟩
  · next h0 => exact .inr ⟨Nat.pos_of_ne_zero h0, (Host.Outcome.next.inj h).symm⟩

/-- Cell arithmetic with either operation of the unit. -/
theorem readCell_writeCell_cases {f : Byte → Byte}
    (h : (readCell s fun v => writeCell (f v) s) = .next t) :
    (s.tapeSize ≤ s.dp ∧ t = s.setFault (some .pointerOutOfRange)) ∨
    (s.dp < s.tapeSize ∧
      t = advance (s.setTape (Memory.write s.tape s.dp (f (s.cell s.dp))))) := by
  rcases readCell_cases h with h | ⟨hd, h⟩
  · exact .inl h
  · rw [writeCell_of_lt _ hd] at h
    exact .inr ⟨hd, (Host.Outcome.next.inj h).symm⟩

theorem execCellIncrement_cases (h : execCellIncrement s = .next t) :
    (s.tapeSize ≤ s.dp ∧ t = s.setFault (some .pointerOutOfRange)) ∨
    (s.dp < s.tapeSize ∧
      t = advance (s.setTape (Memory.write s.tape s.dp (cellSucc (s.cell s.dp))))) :=
  readCell_writeCell_cases h

theorem execCellDecrement_cases (h : execCellDecrement s = .next t) :
    (s.tapeSize ≤ s.dp ∧ t = s.setFault (some .pointerOutOfRange)) ∨
    (s.dp < s.tapeSize ∧
      t = advance (s.setTape (Memory.write s.tape s.dp (cellPred (s.cell s.dp))))) :=
  readCell_writeCell_cases h

theorem execLoopOpen_cases (h : execLoopOpen s = .next t) :
    (s.tapeSize ≤ s.dp ∧ t = s.setFault (some .pointerOutOfRange)) ∨
    (s.dp < s.tapeSize ∧ s.cell s.dp = 0 ∧
      matchForward s.program s.ip = .error .unterminatedLoop ∧
      t = s.setFault (some .unterminatedLoop)) ∨
    (s.dp < s.tapeSize ∧ s.cell s.dp = 0 ∧
      ∃ c, matchForward s.program s.ip = .ok c ∧ t = advance (s.setIp c)) ∨
    (s.dp < s.tapeSize ∧ s.cell s.dp ≠ 0 ∧ t = advance (s.setLs (s.ls ++ [s.ip]))) := by
  rcases readCell_cases h with h | ⟨hd, h⟩
  · exact .inl h
  by_cases hz : s.cell s.dp = 0
  · rw [if_pos (isZero_of_eq hz)] at h
    cases hm : matchForward s.program s.ip with
    | error k =>
      obtain rfl := matchForward_error hm
      rw [hm] at h
      exact .inr (.inl ⟨hd, hz, rfl, (Host.Outcome.next.inj h).symm⟩)
    | ok c =>
      rw [hm] at h
      exact .inr (.inr (.inl ⟨hd, hz, c, rfl, (Host.Outcome.next.inj h).symm⟩))
  · rw [isZero_of_ne hz] at h
    exact .inr (.inr (.inr ⟨hd, hz, (Host.Outcome.next.inj h).symm⟩))

theorem execLoopClose_cases (h : execLoopClose s = .next t) :
    (s.tapeSize ≤ s.dp ∧ t = s.setFault (some .pointerOutOfRange)) ∨
    (s.dp < s.tapeSize ∧ s.cell s.dp = 0 ∧ t = advance (s.setLs s.ls.dropLast)) ∨
    (s.dp < s.tapeSize ∧ s.cell s.dp ≠ 0 ∧ s.ls = [] ∧
      t = s.setFault (some .unmatchedLoopClose)) ∨
    (s.dp < s.tapeSize ∧ s.cell s.dp ≠ 0 ∧
      ∃ below o, s.ls = below ++ [o] ∧ t = advance (s.setIp o)) := by
  rcases readCell_cases h with h | ⟨hd, h⟩
  · exact .inl h
  by_cases hz : s.cell s.dp = 0
  · rw [if_pos (isZero_of_eq hz)] at h
    exact .inr (.inl ⟨hd, hz, (Host.Outcome.next.inj h).symm⟩)
  · rw [isZero_of_ne hz, lsTop_eq] at h
    cases hl : s.ls.getLast? with
    | none =>
      rw [hl] at h
      exact .inr (.inr (.inl ⟨hd, hz, List.getLast?_eq_none_iff.mp hl,
        (Host.Outcome.next.inj h).symm⟩))
    | some o =>
      obtain ⟨below, hb⟩ := List.getLast?_eq_some_iff.mp hl
      rw [hl] at h
      exact .inr (.inr (.inr ⟨hd, hz, below, o, hb, (Host.Outcome.next.inj h).symm⟩))

theorem execInput_cases (h : execInput s = .next t) :
    (s.inq = [] ∧ t = s.setFault (some .inputUnavailable)) ∨
    (∃ b rest, s.inq = b :: rest ∧ s.tapeSize ≤ s.dp ∧
      t = (s.setInq rest).setFault (some .pointerOutOfRange)) ∨
    (∃ b rest, s.inq = b :: rest ∧ s.dp < s.tapeSize ∧
      t = advance ((s.setInq rest).setTape (Memory.write s.tape s.dp b))) := by
  unfold execInput at h
  cases hq : s.inq with
  | nil =>
    rw [inputNext_of_nil hq] at h
    exact .inl ⟨rfl, (Host.Outcome.next.inj h).symm⟩
  | cons b rest =>
    rw [inputNext_of_cons hq] at h
    rcases writeCell_cases h with ⟨hd, ht⟩ | ⟨hd, ht⟩
    · exact .inr (.inl ⟨b, rest, rfl, hd, ht⟩)
    · exact .inr (.inr ⟨b, rest, rfl, hd, ht⟩)

theorem execOutput_cases (h : execOutput s = .next t) :
    (s.tapeSize ≤ s.dp ∧ t = s.setFault (some .pointerOutOfRange)) ∨
    (s.dp < s.tapeSize ∧ t = advance (s.setOut (s.out ++ [s.cell s.dp]))) := by
  rcases readCell_cases h with h | ⟨hd, h⟩
  · exact .inl h
  · exact .inr ⟨hd, (Host.Outcome.next.inj h).symm⟩

theorem execNop_cases {op : Byte} (h : execNop op s = .next t) : t = advance s :=
  (Host.Outcome.next.inj h).symm

/-- Every instruction of the model answers a next state, in every state: a fault of
the spec is one too. -/
theorem exec_answers_next (i : Instr) (s : State) : ∃ t, exec i s = .next t := by
  cases i <;>
    simp only [exec, execCursorRight, execCursorLeft, execCellIncrement, execCellDecrement,
      execLoopOpen, execLoopClose, execInput, execOutput, execNop, readCell, writeCell, raise,
      complete] <;>
    (repeat' split) <;> exact ⟨_, rfl⟩

end Sys2Proof.Machine
end

