-- ==== Sys2Proof/Laws/LoopText.lean ====
section
/-! SUPPORT. Small lemmas of the textual pairing of loop symbols. -/

namespace Sys2Proof.Machine

@[simp] theorem unpairedFrom_nil (p : Nat) (st : List Nat) : unpairedFrom [] p st = st := rfl

@[simp] theorem unpairedFrom_cons (b : Byte) (bs : List Byte) (p : Nat) (st : List Nat) :
    unpairedFrom (b :: bs) p st =
      unpairedFrom bs (p + 1)
        (if b = opLoopOpen then st ++ [p] else if b = opLoopClose then st.dropLast else st) := rfl

theorem unpairedFrom_append (bs cs : List Byte) (p : Nat) (st : List Nat) :
    unpairedFrom (bs ++ cs) p st = unpairedFrom cs (p + bs.length) (unpairedFrom bs p st) := by
  induction bs generalizing p st with
  | nil => rfl
  | cons b bs ih =>
    rw [List.cons_append, unpairedFrom_cons, unpairedFrom_cons, ih, List.length_cons,
      Nat.add_assoc, Nat.add_comm 1]

@[simp] theorem unpairedBefore_zero (program : List Byte) : unpairedBefore program 0 = [] := rfl

/-- Reading one more symbol. -/
theorem unpairedBefore_succ {program : List Byte} {k : Nat} {b : Byte}
    (h : program[k]? = some b) :
    unpairedBefore program (k + 1) =
      if b = opLoopOpen then unpairedBefore program k ++ [k]
      else if b = opLoopClose then (unpairedBefore program k).dropLast
      else unpairedBefore program k := by
  obtain ⟨hk, rfl⟩ := List.getElem?_eq_some_iff.mp h
  have hl : (program.take k).length = k := List.length_take_of_le (Nat.le_of_lt hk)
  simp only [unpairedBefore, List.take_succ_eq_append_getElem hk, unpairedFrom_append, hl,
    Nat.zero_add, unpairedFrom_cons, unpairedFrom_nil]

/-- The unpaired loop-opens lie before the position read up to. -/
theorem unpairedBefore_lt (program : List Byte) (k : Nat) :
    ∀ p ∈ unpairedBefore program k, p < k := by
  induction k with
  | zero => simp
  | succ k ih =>
    cases h : program[k]? with
    | none =>
      have hk : program.length ≤ k := List.getElem?_eq_none_iff.mp h
      have he : unpairedBefore program (k + 1) = unpairedBefore program k := by
        simp only [unpairedBefore, List.take_of_length_le hk,
          List.take_of_length_le (Nat.le_succ_of_le hk)]
      rw [he]
      exact fun p hp => Nat.lt_succ_of_lt (ih p hp)
    | some b =>
      rw [unpairedBefore_succ h]
      intro p hp
      split at hp
      · rcases List.mem_append.mp hp with hp | hp
        · exact Nat.lt_succ_of_lt (ih p hp)
        · rw [List.mem_singleton.mp hp]
          exact Nat.lt_succ_self k
      · split at hp
        · exact Nat.lt_succ_of_lt (ih p ((List.dropLast_sublist _).subset hp))
        · exact Nat.lt_succ_of_lt (ih p hp)

end Sys2Proof.Machine
end

