-- ==== Sys2Proof/Laws/PerInstr.lean ====
section
/-! SUPPORT. Facts about every instruction as syntax, one lemma per constructor. -/

namespace Sys2Proof.Laws

/-- Every instruction has length 1 symbol (30_encoding.md R50). -/
def EncodeOneSymbol.Statement (i : Instr) : Prop := (encode i).length = 1

theorem EncodeOneSymbol.cursorRight : EncodeOneSymbol.Statement .cursorRight := rfl
theorem EncodeOneSymbol.cursorLeft : EncodeOneSymbol.Statement .cursorLeft := rfl
theorem EncodeOneSymbol.cellIncrement : EncodeOneSymbol.Statement .cellIncrement := rfl
theorem EncodeOneSymbol.cellDecrement : EncodeOneSymbol.Statement .cellDecrement := rfl
theorem EncodeOneSymbol.loopOpen : EncodeOneSymbol.Statement .loopOpen := rfl
theorem EncodeOneSymbol.loopClose : EncodeOneSymbol.Statement .loopClose := rfl
theorem EncodeOneSymbol.input : EncodeOneSymbol.Statement .input := rfl
theorem EncodeOneSymbol.output : EncodeOneSymbol.Statement .output := rfl
theorem EncodeOneSymbol.nop (op : Byte) : EncodeOneSymbol.Statement (.nop op) := rfl

/-- The symbol of a well-formed instruction decodes to it (R52, R54). -/
def DecodeEncode.Statement (i : Instr) : Prop := i.wf = true → decodeByte (encodeByte i) = i

theorem DecodeEncode.cursorRight : DecodeEncode.Statement .cursorRight := fun _ => rfl
theorem DecodeEncode.cursorLeft : DecodeEncode.Statement .cursorLeft := fun _ => rfl
theorem DecodeEncode.cellIncrement : DecodeEncode.Statement .cellIncrement := fun _ => rfl
theorem DecodeEncode.cellDecrement : DecodeEncode.Statement .cellDecrement := fun _ => rfl
theorem DecodeEncode.loopOpen : DecodeEncode.Statement .loopOpen := fun _ => rfl
theorem DecodeEncode.loopClose : DecodeEncode.Statement .loopClose := fun _ => rfl
theorem DecodeEncode.input : DecodeEncode.Statement .input := fun _ => rfl
theorem DecodeEncode.output : DecodeEncode.Statement .output := fun _ => rfl
theorem DecodeEncode.nop (op : Byte) : DecodeEncode.Statement (.nop op) := by
  intro h
  simp only [Instr.wf, operationSymbols, Bool.not_eq_true', List.contains_eq_mem,
    decide_eq_false_iff_not, List.mem_cons, List.not_mem_nil, or_false, not_or] at h
  simp only [encodeByte, decodeByte, opCursorRight, opCursorLeft, opCellIncrement,
    opCellDecrement, opLoopOpen, opLoopClose, opInput, opOutput, h, if_false]

end Sys2Proof.Laws
end

