-- ==== Sys2Proof/Laws/Step.lean ====
section
/-! SUPPORT. What one step can do, and induction over runs. -/

namespace Sys2Proof.Machine

/-- The fetch finds the symbol at `ip` and what follows it, or nothing. -/
theorem fetchBytes_of_lt {s : State} (h : s.ip < s.program.length) :
    s.fetchBytes = s.program[s.ip] :: s.program.drop (s.ip + 1) :=
  List.drop_eq_getElem_cons h

theorem fetchBytes_of_le {s : State} (h : s.program.length ≤ s.ip) : s.fetchBytes = [] :=
  List.drop_eq_nil_of_le h

/-- A step from a Running state runs the symbol at `ip`. -/
theorem step_of_lt {s : State} (hf : s.fault = none) (h : s.ip < s.program.length) :
    step s = exec (decodeByte s.program[s.ip]) s := by
  simp only [step, hf, fetchBytes_of_lt h, decode_cons]

/-- A step that has a next state is a step from a Running state, and runs the
symbol at `ip`. -/
theorem step_next {s t : State} (h : step s = .next t) :
    s.fault = none ∧ ∃ b, s.program[s.ip]? = some b ∧ exec (decodeByte b) s = .next t := by
  unfold step at h
  cases hf : s.fault with
  | some k => simp [hf] at h
  | none =>
    rcases Nat.lt_or_ge s.ip s.program.length with hi | hi
    · refine ⟨rfl, s.program[s.ip], List.getElem?_eq_getElem hi, ?_⟩
      simpa only [hf, fetchBytes_of_lt hi, decode_cons] using h
    · simp [hf, fetchBytes_of_le hi] at h

/-- A property of one state that every step keeps holds along the run. -/
theorem Reaches.induct {P : State → Prop} (hstep : ∀ s t, P s → step s = .next t → P t)
    {s t : State} (hs : P s) (h : Reaches s t) : P t := by
  induction h with
  | refl => exact hs
  | tail _ hu ih => exact hstep _ _ ih hu

theorem Reaches.trans {s t u : State} (h : Reaches s t) (h' : Reaches t u) : Reaches s u := by
  induction h' with
  | refl => exact h
  | tail _ hu ih => exact .tail ih hu

/-- A run of one step. -/
theorem Reaches.single {s t : State} (h : step s = .next t) : Reaches s t := .tail (.refl s) h

/-! ### Counted runs -/

@[simp] theorem stepsFor_zero (s : State) : stepsFor 0 s = s := rfl

theorem stepsFor_succ {s t : State} (h : step s = .next t) (n : Nat) :
    stepsFor (n + 1) s = stepsFor n t := by
  simp only [stepsFor, h]

@[simp] theorem visits_zero (p : Nat) (s : State) : visits p 0 s = 0 := rfl

theorem visits_succ {s t : State} (h : step s = .next t) (p n : Nat) :
    visits p (n + 1) s = (if s.ip = p then 1 else 0) + visits p n t := by
  simp only [visits, h]

/-- Counted runs compose where the first part ends in a state that can step. -/
theorem counted_run_append {s w x : State} {m : Nat} (h : stepsFor m s = w)
    (hw : step w = .next x) (n : Nat) :
    stepsFor (m + n) s = stepsFor n w ∧
      ∀ p, visits p (m + n) s = visits p m s + visits p n w := by
  induction m generalizing s with
  | zero =>
    subst h
    simp only [Nat.zero_add, stepsFor_zero, visits_zero, implies_true, and_self]
  | succ m ih =>
    rw [Nat.succ_add]
    cases hs : step s with
    | next t =>
      have := ih ((stepsFor_succ hs m).symm.trans h)
      refine ⟨(stepsFor_succ hs _).trans this.1, fun p => ?_⟩
      rw [visits_succ hs, visits_succ hs, this.2, Nat.add_assoc]
    | fault _ =>
      have : s = w := by simpa only [stepsFor, hs] using h
      rw [← this, hs] at hw
      cases hw
    | refused _ =>
      have : s = w := by simpa only [stepsFor, hs] using h
      rw [← this, hs] at hw
      cases hw

end Sys2Proof.Machine
end

