-- ==== Sys2Proof/Tests/Slice0.lean ====
section
/-! SUPPORT. Tests. Expected values are the spec's: a test's comment names the
vector of 95_test_vectors.md (V-*, P*) or the rule it is taken from. The
`witness_` theorems show that the hypotheses of the statements can be met. -/

namespace Sys2Proof.Tests

open Sys2Proof Sys2Proof.Machine

/-- A Running state on a tape of 4 cells (the size the spec's vectors use). -/
def at4 (program : List Byte) (ip dp : Nat) (tape : Memory) (ls : List Nat) (inq : List Byte) :
    State := ⟨ip, dp, tape, ls, [], none, inq, program, 4⟩

/-- The next state, if there is one. -/
def nextOf : StepOutcome → Option State
  | .next s => some s
  | .fault _ => none
  | .refused _ => none

/-- The stop of a step that has no next state. -/
def faultOf : StepOutcome → Option Fault
  | .next _ => none
  | .fault f => some f
  | .refused _ => none

/-! ### Well-formedness: the check on `nop`, the check on a launch -/

/-- R108: the eight operations' symbols are no `nop`. -/
theorem test_nop_of_an_operation_is_ill_formed :
    ∀ b ∈ ([0x2B, 0x2C, 0x2D, 0x2E, 0x3C, 0x3E, 0x5B, 0x5D] : List Byte),
      Instr.wf (.nop b) = false := by decide

/-- R5: `N_t = 0` is no tape. -/
theorem test_empty_tape_is_ill_formed : Launch.wf ⟨[0x2B], 0, []⟩ = false := by decide

/-! ### Decoding: words written out from R52 and R53 -/

theorem test_decode_cursor_right : decodeTableWord 8 0b00111110 = some .cursorRight := by decide
theorem test_decode_cursor_left : decodeTableWord 8 0b00111100 = some .cursorLeft := by decide
theorem test_decode_cell_increment : decodeTableWord 8 0b00101011 = some .cellIncrement := by decide
theorem test_decode_cell_decrement : decodeTableWord 8 0b00101101 = some .cellDecrement := by decide
theorem test_decode_loop_open : decodeTableWord 8 0b01011011 = some .loopOpen := by decide
theorem test_decode_loop_close : decodeTableWord 8 0b01011101 = some .loopClose := by decide
theorem test_decode_input : decodeTableWord 8 0b00101100 = some .input := by decide
theorem test_decode_output : decodeTableWord 8 0b00101110 = some .output := by decide
theorem test_decode_nop : decodeTableWord 8 0b00100011 = some (.nop 0x23) := by decide

/-- V-N3: the neighbours of every opcode and the ends of the range are no-ops. -/
theorem test_decode_neighbours :
    ∀ b ∈ ([0x00, 0x2A, 0x2F, 0x3B, 0x3D, 0x3F, 0x5A, 0x5C, 0x5E, 0x7F, 0x80, 0xFF] : List Byte),
      decodeByte b = .nop b := by decide

/-- The bytes of P1, from its hexadecimal listing, are `++>+++[<+>-]<.`. -/
theorem test_disassemble_P1 :
    disassemble [0x2b, 0x2b, 0x3e, 0x2b, 0x2b, 0x2b, 0x5b, 0x3c, 0x2b, 0x3e, 0x2d, 0x5d, 0x3c, 0x2e]
    = [.cellIncrement, .cellIncrement, .cursorRight, .cellIncrement, .cellIncrement,
       .cellIncrement, .loopOpen, .cursorLeft, .cellIncrement, .cursorRight, .cellDecrement,
       .loopClose, .cursorLeft, .output] := by decide

/-! ### One step of each instruction -/

/-- V-C5, last step: `dp = N_t` without a fault. -/
theorem test_cursor_right_past_the_end :
    nextOf (step (at4 [0x3E] 0 3 [] [] [])) = some (at4 [0x3E] 1 4 [] [] []) := by decide

/-- V-C3: the fault is at the move; `dp` and `ip` unchanged. -/
theorem test_cursor_left_at_zero :
    nextOf (step (at4 [0x3C] 0 0 [] [] []))
    = some { at4 [0x3C] 0 0 [] [] [] with fault := some .pointerOutOfRange } := by decide

/-- V-C6: from out of range back in range, no fault. -/
theorem test_cursor_left_back_in_range :
    nextOf (step (at4 [0x3C] 0 4 [] [] [])) = some (at4 [0x3C] 1 3 [] [] []) := by decide

/-- V-A4, last step: 255 + 1 = 0. -/
theorem test_cell_increment_wraps :
    nextOf (step (at4 [0x2B] 0 0 [(0, 255)] [] [])) = some (at4 [0x2B] 1 0 [] [] []) := by decide

/-- V-F2: an increment at `dp = N_t`. -/
theorem test_cell_increment_out_of_range :
    nextOf (step (at4 [0x2B] 0 4 [] [] []))
    = some { at4 [0x2B] 0 4 [] [] [] with fault := some .pointerOutOfRange } := by decide

/-- V-A2: 0 - 1 = 255. -/
theorem test_cell_decrement_wraps :
    nextOf (step (at4 [0x2D] 0 3 [] [] [])) = some (at4 [0x2D] 1 3 [(3, 255)] [] []) := by decide

/-- R81's example: 0x30 gives 0x2F, between two other cells. -/
theorem test_cell_decrement_in_place :
    nextOf (step (at4 [0x2D] 0 2 [(1, 1), (2, 0x30), (3, 7)] [] []))
    = some (at4 [0x2D] 1 2 [(1, 1), (2, 0x2F), (3, 7)] [] []) := by decide

/-- V-L1: `[>+<-]`, cell 0: the skip ends after the loop. -/
theorem test_loop_open_skips :
    nextOf (step (at4 [0x5B, 0x3E, 0x2B, 0x3C, 0x2D, 0x5D] 0 0 [] [] []))
    = some (at4 [0x5B, 0x3E, 0x2B, 0x3C, 0x2D, 0x5D] 6 0 [] [] []) := by decide

/-- V-L18: `[[]`: the scan ends at depth 1. -/
theorem test_loop_open_unterminated :
    nextOf (step (at4 [0x5B, 0x5B, 0x5D] 0 0 [] [] []))
    = some { at4 [0x5B, 0x5B, 0x5D] 0 0 [] [] [] with fault := some .unterminatedLoop } := by
  decide

/-- P1, step 12, on the part `[<+>-]` of its Program: the back-jump lands on the
first symbol of the body and the stack keeps its one entry. -/
theorem test_loop_close_jumps_back :
    nextOf (step (at4 [0x5B, 0x3C, 0x2B, 0x3E, 0x2D, 0x5D] 5 1 [(0, 3), (1, 2)] [0] []))
    = some (at4 [0x5B, 0x3C, 0x2B, 0x3E, 0x2D, 0x5D] 1 1 [(0, 3), (1, 2)] [0] []) := by decide

/-- V-L13: zero cell and empty stack: no fault, no effect but the advance. -/
theorem test_loop_close_on_empty_stack :
    nextOf (step (at4 [0x5D] 0 0 [] [] [])) = some (at4 [0x5D] 1 0 [] [] []) := by decide

/-- V-F7: the byte 07 is consumed, then the fault. -/
theorem test_input_out_of_range_consumes :
    nextOf (step (at4 [0x2C] 0 4 [] [] [7, 8]))
    = some { at4 [0x2C] 0 4 [] [] [8] with fault := some .pointerOutOfRange } := by decide

/-- V-I4: input overwrites the cell, also with 0. -/
theorem test_input_of_zero :
    nextOf (step (at4 [0x2C] 0 0 [(0, 1)] [] [0])) = some (at4 [0x2C] 1 0 [] [] []) := by decide

/-- R101's example: 0x48 at `dp = 1`. -/
theorem test_output_appends :
    nextOf (step (at4 [0x2E] 0 1 [(1, 0x48)] [] []))
    = some { at4 [0x2E] 1 1 [(1, 0x48)] [] [] with out := [0x48] } := by decide

/-- V-F4: nothing is emitted at `dp = N_t`. -/
theorem test_output_out_of_range :
    nextOf (step (at4 [0x2E] 0 4 [] [] []))
    = some { at4 [0x2E] 0 4 [] [] [] with fault := some .pointerOutOfRange } := by decide

/-- V-F11: a no-op at `dp = N_t` does not fault. -/
theorem test_nop_out_of_range :
    nextOf (step (at4 [0x78] 0 4 [] [] [])) = some (at4 [0x78] 1 4 [] [] []) := by decide

/-! ### Where no step is enabled, reset, the ports, the host's stand-in -/

/-- V-N1: the empty Program is Halted at reset. -/
theorem test_empty_program_is_halted :
    faultOf (step (State.resetWith ⟨[], 30000, []⟩)) = some .halted := by decide

/-- R119: after a fault the state is frozen. -/
theorem test_faulted_is_frozen :
    faultOf (step { at4 [0x2B] 0 0 [] [] [] with fault := some .inputUnavailable })
    = some (.faulted .inputUnavailable) := by decide

/-- V-R1: after a run that faulted, a reset starts from a zero tape and `.` emits
00. -/
theorem test_reset_forgets :
    (nextOf (step (hostReset ⟨[0x2E], 4, []⟩
      { at4 [0x3C] 0 0 [(0, 1)] [1] [9] with fault := some .pointerOutOfRange }))).map State.out
    = some [0] := by decide

/-- V-I2 and V-I5, the port view: the events of `,.,.` on 00 80 33, and of `,` on
no input. -/
theorem test_port_events :
    runEvents 4 (State.resetWith ⟨[0x2C, 0x2E, 0x2C, 0x2E], 4, [0x00, 0x80, 0x33]⟩)
      = [.inReq, .inByte 0x00, .outByte 0x00, .inReq, .inByte 0x80, .outByte 0x80] ∧
    runEvents 1 (State.resetWith ⟨[0x2C], 4, []⟩) = [.inReq, .inNone] := by decide

/-- The codes of R18 and R110. -/
theorem test_fault_codes :
    [FaultKind.pointerOutOfRange, .instructionPointerOutOfRange, .unmatchedLoopClose,
     .unterminatedLoop, .inputUnavailable].map FaultKind.code = [1, 2, 3, 4, 5] := by decide

/-- V-M8 and V-M14: the deep nest `[+[-]>[[,].]<]x` from 0, and a last `[`. -/
theorem test_match_forward :
    (matchForward [0x5B, 0x2B, 0x5B, 0x2D, 0x5D, 0x3E, 0x5B, 0x5B, 0x2C, 0x5D, 0x2E, 0x5D, 0x3C,
      0x5D, 0x78] 0).toOption = some 13 ∧
    (matchForward [0x5B, 0x5B, 0x5B, 0x5D, 0x5D, 0x5D, 0x5B] 6).toOption = none := by decide

/-- Every table word runs as the first instruction after reset. -/
theorem test_first_instruction_after_reset :
    ∀ w ∈ [0x3E, 0x3C, 0x2B, 0x2D, 0x5B, 0x5D, 0x2C, 0x2E, 0x00],
      (nextOf (step (State.reset.withFetchWord 8 w))).isSome = true := by decide

/-! ### Witnesses -/

/-- The Program `[-]`. -/
def clearLoop : List Byte := [0x5B, 0x2D, 0x5D]

theorem witness_DecodeOfEncode :
    Instr.wf .loopOpen = true ∧ Instr.wf (.nop 0x00) = true ∧ Instr.wf (.nop 0xFF) = true := by
  decide

theorem witness_AssembleDisassembleInverse :
    ∀ i ∈ [Instr.cursorRight, .nop 0x5C, .output], i.wf = true := by decide

/-- Both forms of cursor-left, at the boundary and beside it. -/
theorem witness_CursorLeftResult :
    0 < (at4 [0x3C] 0 1 [] [] []).dp ∧ (at4 [0x3C] 0 0 [] [] []).dp = 0 := by decide

/-- The last cell and the first address beyond it: the forms of cell-increment,
cell-decrement and output. -/
theorem witness_cell_forms :
    (at4 [] 0 3 [] [] []).dp < (at4 [] 0 3 [] [] []).tapeSize ∧
    (at4 [] 0 4 [] [] []).tapeSize ≤ (at4 [] 0 4 [] [] []).dp := by decide

theorem witness_LoopOpenResult :
    (∃ s : State, s.tapeSize ≤ s.dp) ∧
    (∃ s : State, s.dp < s.tapeSize ∧ s.cell s.dp = 0 ∧ matchForward s.program s.ip = .ok 2) ∧
    (∃ s : State, s.dp < s.tapeSize ∧ s.cell s.dp = 0 ∧
      ∀ c, matchForward s.program s.ip ≠ .ok c) ∧
    (∃ s : State, s.dp < s.tapeSize ∧ s.cell s.dp ≠ 0) :=
  ⟨⟨at4 clearLoop 0 4 [] [] [], by decide⟩,
   ⟨at4 clearLoop 0 3 [] [] [], by decide, by decide, rfl⟩,
   ⟨at4 [0x5B] 0 3 [] [] [], by decide, by decide, by intro c h; cases h⟩,
   ⟨at4 clearLoop 0 3 [(3, 1)] [] [], by decide, by decide⟩⟩

theorem witness_LoopCloseResult :
    (∃ s : State, s.tapeSize ≤ s.dp) ∧
    (∃ s : State, s.dp < s.tapeSize ∧ s.cell s.dp = 0 ∧ s.ls = [] ++ [0]) ∧
    (∃ s : State, s.dp < s.tapeSize ∧ s.cell s.dp = 0 ∧ s.ls = []) ∧
    (∃ s : State, s.dp < s.tapeSize ∧ s.cell s.dp ≠ 0 ∧ s.ls = [] ++ [0]) ∧
    (∃ s : State, s.dp < s.tapeSize ∧ s.cell s.dp ≠ 0 ∧ s.ls = []) :=
  ⟨⟨at4 clearLoop 2 4 [] [] [], by decide⟩,
   ⟨at4 clearLoop 2 3 [] [0] [], by decide⟩,
   ⟨at4 clearLoop 2 3 [] [] [], by decide⟩,
   ⟨at4 clearLoop 2 3 [(3, 255)] [0] [], by decide⟩,
   ⟨at4 clearLoop 2 3 [(3, 255)] [] [], by decide⟩⟩

theorem witness_InputResult :
    (∃ s : State, s.inq = []) ∧
    (∃ s : State, s.inq = 0x41 :: [] ∧ s.dp < s.tapeSize) ∧
    (∃ s : State, s.inq = 0x41 :: [] ∧ s.tapeSize ≤ s.dp) :=
  ⟨⟨at4 [0x2C] 0 0 [] [] [], rfl⟩, ⟨at4 [0x2C] 0 3 [] [] [0x41], by decide⟩,
   ⟨at4 [0x2C] 0 4 [] [] [0x41], by decide⟩⟩

theorem witness_NopResult :
    (0x5C : Byte) ∉ ([0x2B, 0x2C, 0x2D, 0x2E, 0x3C, 0x3E, 0x5B, 0x5D] : List Byte) := by decide

theorem witness_FaultPriority :
    ∃ s : State, s.tapeSize ≤ s.dp ∧ s.inq = [] ∧ s.ls = [] ∧
      ∀ c, matchForward s.program s.ip ≠ .ok c :=
  ⟨at4 [0x5B] 0 4 [] [] [], by decide, rfl, rfl, by intro c h; cases h⟩

theorem witness_RepeatedCellArithmetic :
    (at4 [] 0 3 [(3, 200)] [] []).dp < (at4 [] 0 3 [(3, 200)] [] []).tapeSize := by decide

theorem witness_TapeAccessPrimitives :
    (at4 [] 0 0 [] [] []).tapeSize ≤ 4 ∧ 3 < (at4 [] 0 0 [] [] []).tapeSize ∧
    memRead (at4 [] 0 3 [(3, 9)] [] []).dp (at4 [] 0 3 [(3, 9)] [] []) = .ok 9 :=
  ⟨by decide, by decide, rfl⟩

theorem witness_EqualReadsEqualTapes :
    Memory.wf [(1, 2), (3, 4)] ∧
    ∀ a, Memory.read [(1, 2), (3, 4)] a = Memory.read [(1, 2), (3, 4)] a :=
  ⟨by decide, fun _ => rfl⟩

theorem witness_LoopStackOperations :
    (∃ s : State, s.ls = [2] ++ [5]) ∧ ∃ s : State, s.ls = [] :=
  ⟨⟨at4 [] 0 0 [] [2, 5] [], rfl⟩, ⟨at4 [] 0 0 [] [] [], rfl⟩⟩

theorem witness_InputNextTakesTheHead :
    (∃ s : State, s.inq = []) ∧ ∃ s : State, s.inq = 1 :: [2] :=
  ⟨⟨at4 [] 0 0 [] [] [], rfl⟩, ⟨at4 [] 0 0 [] [] [1, 2], rfl⟩⟩

theorem witness_OutputBufferIsAppendOnly :
    ∃ s t : State, step s = .next t ∧ t.out ≠ s.out :=
  ⟨at4 [0x2E] 0 3 [] [] [], _, rfl, by decide⟩

/-- Both ends of the scan: one that matches at the Program's last position, one
that fails from the last position. -/
theorem witness_ScanEngineMatchesScan :
    (0 < clearLoop.length ∧ matchForward clearLoop 0 = .ok 2 ∧ 1 < 2 - 0) ∧
    (2 < ([0x2B, 0x2B, 0x5B] : List Byte).length ∧
      matchForward [0x2B, 0x2B, 0x5B] 2 = .error .unterminatedLoop ∧
      0 < ([0x2B, 0x2B, 0x5B] : List Byte).length - 2) :=
  ⟨⟨by decide, rfl, by decide⟩, ⟨by decide, rfl, by decide⟩⟩

/-- The `iff` statements about the scan, with both sides met. -/
theorem witness_ScanReturnsLeastBalancingClose :
    (0 < clearLoop.length ∧ matchForward clearLoop 0 = .ok 2 ∧
      ClosesOutnumberByOne clearLoop 0 2) ∧
    (0 < [opLoopOpen].length ∧ matchForward [opLoopOpen] 0 = .error .unterminatedLoop) :=
  ⟨⟨by decide, rfl, by unfold ClosesOutnumberByOne; decide⟩, by decide, rfl⟩

theorem witness_ScanFindsTextualPartner :
    Paired clearLoop 0 2 ∧ OpenEnded [0x2B, 0x5B] 1 :=
  ⟨by unfold Paired; decide, by unfold OpenEnded; decide⟩

theorem witness_StepRunsDecodedInstruction :
    (at4 clearLoop 1 0 [] [] []).fault = none ∧
    decode (at4 clearLoop 1 0 [] [] []).fetchBytes = .ok (.cellDecrement, [0x5D]) ∧
    (at4 clearLoop 1 0 [] [] []).prog 1 = some 0x2D := ⟨rfl, rfl, rfl⟩

theorem witness_StepEnabledExactlyWhenRunning :
    (at4 clearLoop 3 0 [] [] []).runState ≠ .running ∧
    Reaches (at4 clearLoop 3 0 [] [] []) (at4 clearLoop 3 0 [] [] []) ∧
    (at4 clearLoop 2 0 [] [] []).runState = .running :=
  ⟨by decide, .refl _, by decide⟩

/-- The three rows of the table of R68. -/
theorem witness_AdvanceAfterEveryInstruction :
    (∃ s t : State, step s = .next t ∧ t.fault = none ∧ s.prog s.ip = some opLoopOpen ∧
      s.cell s.dp = 0 ∧ matchForward s.program s.ip = .ok 2) ∧
    (∃ s t : State, step s = .next t ∧ t.fault = none ∧ s.prog s.ip = some opLoopClose ∧
      s.cell s.dp ≠ 0 ∧ s.ls = [] ++ [0]) ∧
    (∃ s t : State, step s = .next t ∧ t.fault = none ∧
      ¬ (s.prog s.ip = some opLoopOpen ∧ s.cell s.dp = 0) ∧
      ¬ (s.prog s.ip = some opLoopClose ∧ s.cell s.dp ≠ 0)) :=
  ⟨⟨at4 clearLoop 0 3 [] [] [], _, rfl, rfl, rfl, by decide, rfl⟩,
   ⟨at4 clearLoop 2 3 [(3, 1)] [0] [], _, rfl, rfl, rfl, by decide, rfl⟩,
   ⟨at4 clearLoop 2 3 [] [0] [], _, rfl, rfl, by decide, by decide⟩⟩

/-- Both clauses of FaultingStepIsPrecise, the second by another instruction and by
an input with another fault, where `dp` is out of range too. -/
theorem witness_FaultingStepIsPrecise :
    (∃ s t : State, step s = .next t ∧ t.fault = some .pointerOutOfRange ∧
      s.prog s.ip = some opInput ∧ s.inq = 1 :: [2]) ∧
    (∃ s t : State, step s = .next t ∧ t.fault = some .pointerOutOfRange ∧
      ¬ (s.prog s.ip = some opInput ∧ FaultKind.pointerOutOfRange = .pointerOutOfRange)) ∧
    (∃ s t : State, step s = .next t ∧ t.fault = some .inputUnavailable ∧
      s.tapeSize ≤ s.dp ∧
      ¬ (s.prog s.ip = some opInput ∧ FaultKind.inputUnavailable = .pointerOutOfRange)) :=
  ⟨⟨at4 [0x2C] 0 4 [] [] [1, 2], _, rfl, rfl, rfl, rfl⟩,
   ⟨at4 [0x3C] 0 0 [] [] [1], _, rfl, rfl, by decide⟩,
   ⟨at4 [0x2C] 0 4 [] [] [], _, rfl, rfl, by decide, by decide⟩⟩

theorem witness_LoopFaultCauses :
    (∃ s t : State, step s = .next t ∧ t.fault = some .unmatchedLoopClose) ∧
    (∃ s t : State, step s = .next t ∧ t.fault = some .unterminatedLoop) :=
  ⟨⟨at4 [0x5D] 0 3 [(3, 1)] [] [], _, rfl, rfl⟩, ⟨at4 [0x5B] 0 3 [] [] [], _, rfl, rfl⟩⟩

theorem witness_PointerAndInputFaultCauses :
    (∃ s t : State, step s = .next t ∧ s.prog s.ip = some opCursorLeft ∧ s.dp = 0) ∧
    (∃ s t : State, step s = .next t ∧ s.tapeSize ≤ s.dp ∧ s.prog s.ip = some opLoopClose) ∧
    (∃ s t : State, step s = .next t ∧ s.tapeSize ≤ s.dp ∧ t.fault = some .inputUnavailable) :=
  ⟨⟨at4 [0x3C] 0 0 [] [] [], _, rfl, rfl, rfl⟩,
   ⟨at4 [0x5D] 0 4 [] [] [], _, rfl, by decide, rfl⟩,
   ⟨at4 [0x2C] 0 4 [] [] [], _, rfl, by decide, rfl⟩⟩

theorem witness_FaultIsFinal :
    ∃ s : State, s.fault = some .unterminatedLoop ∧ Reaches s s :=
  ⟨{ at4 [0x5B] 0 0 [] [] [] with fault := some .unterminatedLoop }, rfl, .refl _⟩

/-- Each component is changed by some step. -/
theorem witness_WhoWritesWhat :
    (∃ s t : State, step s = .next t ∧ t.dp ≠ s.dp) ∧
    (∃ s t : State, step s = .next t ∧ t.ls ≠ s.ls) ∧
    (∃ s t : State, step s = .next t ∧ t.out ≠ s.out) ∧
    (∃ s t : State, step s = .next t ∧ t.inq ≠ s.inq) ∧
    (∃ s t : State, step s = .next t ∧ t.cell 3 ≠ s.cell 3) :=
  ⟨⟨at4 [0x3E] 0 0 [] [] [], _, rfl, by decide⟩, ⟨at4 [0x5B] 0 0 [(0, 1)] [] [], _, rfl, by decide⟩,
   ⟨at4 [0x2E] 0 0 [] [] [], _, rfl, by decide⟩, ⟨at4 [0x2C] 0 4 [] [] [1], _, rfl, by decide⟩,
   ⟨at4 [0x2C] 0 3 [] [] [1], _, rfl, by decide⟩⟩

/-- For RunKeepsTheLaunch, StreamsAreMonotone and the first clause of
RunIsLinearAndReadsNoInputAhead: two different later states of one run. -/
theorem witness_runs :
    ∃ s t u : State, Reaches s t ∧ Reaches s u ∧ t ≠ u :=
  ⟨at4 [0x2E] 0 0 [] [] [], at4 [0x2E] 0 0 [] [] [], _, .refl _, Reaches.single rfl, by decide⟩

/-- For the second clause of RunIsLinearAndReadsNoInputAhead: a run that takes the
last byte of its input. -/
theorem witness_RunReadsNoInputAhead :
    ∃ s t : State, Reaches s t ∧ t.fault ≠ some .inputUnavailable ∧ s.inq = [7] ∧ t.inq = [] :=
  ⟨at4 [0x2C, 0x2C] 0 3 [] [] [7], _, Reaches.single rfl, by decide, rfl, rfl⟩

/-- For EveryRunHasOneOutcome: a run that halts and one that faults. -/
theorem witness_EveryRunHasOneOutcome :
    HaltsWith (at4 [0x2E] 0 0 [] [] []) [0] ∧
    FaultsWith (at4 [0x3C] 0 0 [] [] []) ⟨.pointerOutOfRange, 0, 0, []⟩ :=
  ⟨⟨_, Reaches.single rfl, rfl⟩, ⟨_, Reaches.single rfl, rfl⟩⟩

/-- For EveryRunHasOneOutcome: V-L12's diverging state, the `]` of `+[]` at 2. -/
theorem witness_EveryRunHasOneOutcome_diverges :
    Diverges (at4 [0x2B, 0x5B, 0x5D] 2 0 [(0, 1)] [1] []) := by
  intro t ht
  have h : t = at4 [0x2B, 0x5B, 0x5D] 2 0 [(0, 1)] [1] [] := by
    refine Reaches.induct (P := fun t => t = at4 [0x2B, 0x5B, 0x5D] 2 0 [(0, 1)] [1] [])
      ?_ rfl ht
    rintro s u rfl hu
    exact (Host.Outcome.next.inj hu).symm
  subst h
  decide

theorem witness_NopProgramsHalt :
    ∀ b ∈ ([0x61, 0x20, 0x62] : List Byte), b ∉ operationSymbols := by decide

theorem witness_FetchWordIsRunNext : (255 : Nat) < 256 := by decide

theorem witness_RunsDoNotCommunicate :
    Reaches (hostReset ⟨[], 1, []⟩ State.reset) (State.resetWith ⟨[], 1, []⟩) := .refl _

/-- A Halted state with a non-empty LoopStack, unread input and `dp >= N_t`, and a
Faulted state. -/
theorem witness_HostReadsTheEnd :
    (∃ s : State, s.ip ≤ s.program.length ∧ s.ls ≠ [] ∧ s.inq ≠ [] ∧ s.tapeSize ≤ s.dp ∧
      s.result? = some []) ∧
    (∃ s : State, s.ip ≤ s.program.length ∧
      s.failure? = some ⟨.unmatchedLoopClose, 0, 3, []⟩) :=
  ⟨⟨at4 [0x5B] 1 4 [] [0] [1], by decide⟩,
   ⟨{ at4 [0x5D] 0 3 [] [] [] with fault := some .unmatchedLoopClose }, by decide⟩⟩

theorem witness_InvariantHoldsAtReset : Launch.wf ⟨[0x2B], 1, []⟩ = true := by decide

/-- A state away from reset that meets the invariant, inside a loop. -/
theorem inv_inside_a_loop : Inv (at4 clearLoop 2 3 [(3, 2)] [0] [7]) where
  tapeExists := by decide
  tapeCanonical := by decide
  tapeInRange := by decide
  ipInProgram := by decide
  dpBound := by decide
  lsRising := by decide
  lsBelowIp := by decide
  lsLoopOpens := by decide
  neverCodeTwo := by decide

theorem witness_StepKeepsInvariant : ∃ s t : State, Inv s ∧ step s = .next t ∧ s ≠ t :=
  ⟨_, _, inv_inside_a_loop, rfl, by decide⟩

theorem witness_ReachableStatesMeetTheBounds :
    ∃ (l : Launch) (s : State), l.wf = true ∧ Reaches (State.resetWith l) s ∧ s.dp = l.tapeSize :=
  ⟨⟨[0x3E], 1, []⟩, _, by decide, Reaches.single rfl, by decide⟩

theorem witness_StepKeepsStackMatchingText :
    ∃ s t : State, StackMatchesText s ∧ step s = .next t ∧ s.ls ≠ t.ls :=
  ⟨at4 clearLoop 2 3 [] [0] [], _, by unfold StackMatchesText; decide, rfl, by decide⟩

theorem witness_PairedCloseUsesItsPartner :
    (∃ s : State, StackMatchesText s ∧ s.fault = none ∧ s.dp < s.tapeSize ∧
      Paired s.program 0 s.ip ∧ s.cell s.dp ≠ 0) ∧
    (∃ s : State, StackMatchesText s ∧ s.fault = none ∧ s.dp < s.tapeSize ∧
      Paired s.program 0 s.ip ∧ s.cell s.dp = 0) :=
  ⟨⟨at4 clearLoop 2 3 [(3, 1)] [0] [], by unfold StackMatchesText Paired; decide⟩,
   ⟨at4 clearLoop 2 3 [] [0] [], by unfold StackMatchesText Paired; decide⟩⟩

theorem witness_StrayCloseFaultsOrDoesNothing :
    (∃ s : State, StackMatchesText s ∧ s.fault = none ∧ s.dp < s.tapeSize ∧
      Stray s.program s.ip ∧ s.cell s.dp ≠ 0) ∧
    (∃ s : State, StackMatchesText s ∧ s.fault = none ∧ s.dp < s.tapeSize ∧
      Stray s.program s.ip ∧ s.cell s.dp = 0) :=
  ⟨⟨at4 [0x5D] 0 3 [(3, 1)] [] [], by unfold StackMatchesText Stray; decide⟩,
   ⟨at4 [0x5D] 0 3 [] [] [], by unfold StackMatchesText Stray; decide⟩⟩

/-- `+[+` with the `[` at 1 entered; the step after it completes. -/
theorem witness_OpenEndedEntryStays :
    ∃ s t u : State, StackMatchesText s ∧ OpenEnded s.program 1 ∧ 1 ∈ s.ls ∧ Reaches s t ∧
      step t = .next u ∧ u.fault = none :=
  ⟨at4 [0x2B, 0x5B, 0x2B] 2 0 [(0, 1)] [1] [], _, _,
   by unfold StackMatchesText; decide, by unfold OpenEnded; decide, by decide, .refl _, rfl, rfl⟩

theorem balanced_clearLoop : Balanced clearLoop := by
  refine ⟨fun c hc => ?_, fun o ho => ?_⟩
  · obtain ⟨h, hn⟩ := hc
    match c with
    | 0 => exact absurd h (by decide)
    | 1 => exact absurd h (by decide)
    | 2 => exact absurd hn (by decide)
    | n + 3 => simp [clearLoop] at h
  · have h : unpairedBefore clearLoop clearLoop.length = [] := by decide
    rw [OpenEnded, h] at ho
    cases ho

theorem witness_BalancedRunsHaveNoLoopFaults :
    ∃ (l : Launch) (s : State), Balanced l.program ∧ Reaches (State.resetWith l) s ∧
      s.runState = .halted :=
  ⟨⟨clearLoop, 4, []⟩, _, balanced_clearLoop, Reaches.single rfl, by decide⟩

/-- What holds of every state of a list that holds `s` and every next state of its own holds along the run from `s`. -/
theorem forall_run {P : State → Prop} (l : List State) {s : State} (hs : s ∈ l)
    (hl : ∀ x ∈ l, ∀ y ∈ nextOf (step x), y ∈ l) (hP : ∀ x ∈ l, P x) :
    ∀ u, Reaches s u → P u := fun u h =>
  hP u (h.induct (P := (· ∈ l)) (fun x y hx hy => hl x hx y (by rw [hy]; rfl)) hs)

/-- The loop `[-]` at cell 3, entered with `v` in it, for `v = 2` and `v = 0`. -/
theorem witness_CountedLoopRunsItsPasses :
    ∀ v ∈ ([2, 0] : List Nat), ∃ (s : State) (o c d : Nat), Paired s.program o c ∧ s.ip = o ∧
      s.dp = d ∧ d < s.tapeSize ∧ s.fault = none ∧ (s.cell d).toNat = v ∧
      (∀ u : State, Reaches s u → u.ip = o + 1 → u.dp = d → u.ls = s.ls ++ [o] →
        u.fault = none →
        ∃ w m, stepsFor m u = w ∧ visits c m u = 0 ∧ w.ip = c ∧ w.dp = d ∧
          w.ls = s.ls ++ [o] ∧ w.fault = none ∧
          (w.cell d).toNat = ((u.cell d).toNat + 255) % 256) := by
  have body : ∀ tape : Memory, tape ∈ ([[(3, 2)], []] : List Memory) →
      ∀ u, Reaches (at4 clearLoop 0 3 tape [] []) u → u.ip = 1 →
        visits 2 1 u = 0 ∧ (stepsFor 1 u).ip = 2 ∧ (stepsFor 1 u).dp = 3 ∧
        (stepsFor 1 u).ls = [0] ∧ (stepsFor 1 u).fault = none ∧
        ((stepsFor 1 u).cell 3).toNat = ((u.cell 3).toNat + 255) % 256 := fun tape ht =>
    forall_run ((List.range 6).map (stepsFor · (at4 clearLoop 0 3 tape [] [])))
      (by revert tape; decide) (by revert tape; decide) (by revert tape; decide)
  intro v hv
  obtain ⟨tape, ht, he⟩ : ∃ tape ∈ ([[(3, 2)], []] : List Memory),
      ((at4 clearLoop 0 3 tape [] []).cell 3).toNat = v := by revert v; decide
  exact ⟨at4 clearLoop 0 3 tape [] [], 0, 2, 3, by unfold Paired; exact ⟨rfl, rfl⟩, rfl, rfl,
    (by decide : 3 < 4), rfl, he, fun u hu hi _ _ _ => ⟨_, 1, rfl, body tape ht u hu hi⟩⟩

end Sys2Proof.Tests
end

section
/-! Proofs about the tape (20_memory.md R33, R34): what a read that answers tells,
what a write leaves, and cell arithmetic as one of each. -/

namespace Sys2Proof.Machine

/-- A read that answers passed its check, and its answer is the cell. -/
theorem memRead_eq_ok_iff {a : Nat} {s : State} {v : Byte} :
    memRead a s = .ok v ↔ a < s.tapeSize ∧ s.cell a = v := by
  rcases Nat.lt_or_ge a s.tapeSize with ha | ha
  · simp [memRead_of_lt ha, ha]
  · simp [memRead_of_le ha, Nat.not_lt.mpr ha]

/-- A write within the tape: the written cell, every other cell, and the frame (R34). -/
theorem memWrite_result {a : Nat} {s : State} (v : Byte) (h : a < s.tapeSize) :
    ∃ t, memWrite a v s = .ok t ∧ t.cell a = v ∧ (∀ b, b ≠ a → t.cell b = s.cell b) ∧
      t = { s with tape := t.tape } :=
  ⟨_, memWrite_of_lt v h, Memory.read_write_same s.tape a v,
    Memory.read_write_other s.tape a v, rfl⟩

/-- A read and a write of the cell at `dp`, for either operation of the unit: the
read's check fires first, so where it passes the write's never fires (R34). -/
theorem readCell_writeCell_of_memRead {f : Byte → Byte} {s : State} {v : Byte}
    (h : memRead s.dp s = .ok v) :
    ∃ t, memWrite s.dp (f v) s = .ok t ∧
      (readCell s fun w => writeCell (f w) s) = .next (advance t) := by
  obtain ⟨hdp, rfl⟩ := memRead_eq_ok_iff.mp h
  exact ⟨_, memWrite_of_lt _ hdp, by rw [readCell_of_lt _ hdp, writeCell_of_lt _ hdp]⟩

/-- Settles O16: each access by the two sides of its check, cell arithmetic by the read's
check standing for the write's. -/
theorem tapeAccessPrimitives : Obligations.TapeAccessPrimitives := by
  unfold Obligations.TapeAccessPrimitives
  refine ⟨fun a s => ⟨memRead_of_le, memRead_of_lt⟩,
    fun a v s => ⟨memWrite_of_le v, memWrite_result v⟩, fun s v hread => ⟨?_, ?_⟩⟩
  · exact readCell_writeCell_of_memRead (f := cellSucc) hread
  · exact readCell_writeCell_of_memRead (f := cellPred) hread

end Sys2Proof.Machine
end

section
/-! Proofs about the execution cycle (40_execution_cycle.md): when a step is enabled
(R66), which symbol it runs, and the ways an instruction can end (R67, R68, R70). -/

namespace Sys2Proof.Machine

/-! ### The instruction a step runs -/

/-- Decoding undoes encoding on every well-formed instruction (R52, R54). -/
theorem decodeByte_encodeByte {i : Instr} (hi : i.wf = true) : decodeByte (encodeByte i) = i := by
  cases i with
  | nop op => exact Laws.DecodeEncode.nop op hi
  | _ => rfl

/-- A symbol decodes to a well-formed instruction exactly if it is that instruction's. -/
theorem decodeByte_eq_iff {b : Byte} {i : Instr} (hi : i.wf = true) :
    decodeByte b = i ↔ b = encodeByte i :=
  ⟨fun h => h ▸ (encodeByte_decodeByte b).symm, fun h => h ▸ decodeByte_encodeByte hi⟩

/-- A step with a next state executes the one instruction whose symbol is at `ip`. -/
theorem step_next_exec {s t : State} (h : step s = .next t) :
    s.fault = none ∧ ∃ i, exec i s = .next t ∧
      ∀ j : Instr, j.wf = true → (s.prog s.ip = some (encodeByte j) ↔ i = j) := by
  obtain ⟨hf, b, hb, he⟩ := step_next h
  exact ⟨hf, decodeByte b, he, fun j hj => by
    rw [decodeByte_eq_iff hj, State.prog, hb, Option.some.injEq]⟩

/-! ### When a step is enabled -/

/-- A step has a next state exactly in a Running state (R66). -/
theorem step_enabled_iff_running (s : State) :
    (∃ t, step s = .next t) ↔ s.runState = .running := by
  rw [runState_running_iff]
  constructor
  · rintro ⟨t, h⟩
    obtain ⟨hf, b, hb, -⟩ := step_next h
    exact ⟨hf, (List.getElem?_eq_some_iff.mp hb).1⟩
  · rintro ⟨hf, hi⟩
    rw [step_of_lt hf hi]
    exact exec_answers_next _ s

/-- A run from a state that is not Running stays there. -/
theorem Reaches.eq_of_not_running {s t : State} (hs : s.runState ≠ .running)
    (h : Reaches s t) : t = s := by
  refine h.induct (P := (· = s)) ?_ rfl
  rintro u v rfl hv
  exact absurd ((step_enabled_iff_running u).mp ⟨v, hv⟩) hs

/-- Settles O26: the next state exists because every instruction answers one, and a run
that cannot take its first step is at its end. -/
theorem stepEnabledExactlyWhenRunning : Obligations.StepEnabledExactlyWhenRunning := by
  unfold Obligations.StepEnabledExactlyWhenRunning
  exact fun s => ⟨runState_running_iff s, step_enabled_iff_running s,
    fun hs _ => Reaches.eq_of_not_running hs⟩

/-! ### How an instruction ends -/

/-- The ways instruction `i` executed in `s` can end in `t`: two in a fault (R70), three in
the advance, told apart by what stands in `ip` before it (R68). -/
inductive ExecEnd (i : Instr) (s : State) : State → Prop where
  /-- A fault raised before anything else was written. -/
  | raised (k : FaultKind) (hk : ¬ (i = .input ∧ k = .pointerOutOfRange)) :
      ExecEnd i s (s.setFault (some k))
  /-- The fault of an input's write, after the byte was taken (R100). -/
  | inputLost {b : Byte} {rest : List Byte} (hi : i = .input) (hq : s.inq = b :: rest) :
      ExecEnd i s ((s.setInq rest).setFault (some .pointerOutOfRange))
  /-- A loop-open that skips to its match (R87). -/
  | skipped {c : Nat} (hi : i = .loopOpen) (hz : s.cell s.dp = 0)
      (hm : matchForward s.program s.ip = .ok c) : ExecEnd i s (advance (s.setIp c))
  /-- A loop-close that jumps back to the top of the LoopStack (R88). -/
  | jumpedBack {below : List Nat} {o : Nat} (hi : i = .loopClose) (hz : s.cell s.dp ≠ 0)
      (hl : s.ls = below ++ [o]) : ExecEnd i s (advance (s.setIp o))
  /-- Everything else leaves `ip` to the advance. -/
  | advanced {u : State} (hip : u.ip = s.ip) (hf : u.fault = s.fault)
      (ho : ¬ (i = .loopOpen ∧ s.cell s.dp = 0)) (hc : ¬ (i = .loopClose ∧ s.cell s.dp ≠ 0)) :
      ExecEnd i s (advance u)

section
variable {i : Instr} {s t : State}

/-- Every instruction ends in one of these ways. -/
theorem exec_end (h : exec i s = .next t) : ExecEnd i s t := by
  cases i with
  | cursorRight =>
    obtain rfl := execCursorRight_cases h
    exact .advanced rfl rfl (by simp) (by simp)
  | cursorLeft =>
    obtain ⟨-, rfl⟩ | ⟨-, rfl⟩ := execCursorLeft_cases h
    · exact .raised _ (by simp)
    · exact .advanced rfl rfl (by simp) (by simp)
  | cellIncrement =>
    obtain ⟨-, rfl⟩ | ⟨-, rfl⟩ := execCellIncrement_cases h
    · exact .raised _ (by simp)
    · exact .advanced rfl rfl (by simp) (by simp)
  | cellDecrement =>
    obtain ⟨-, rfl⟩ | ⟨-, rfl⟩ := execCellDecrement_cases h
    · exact .raised _ (by simp)
    · exact .advanced rfl rfl (by simp) (by simp)
  | loopOpen =>
    obtain ⟨-, rfl⟩ | ⟨-, -, -, rfl⟩ | ⟨-, hz, c, hm, rfl⟩ | ⟨-, hz, rfl⟩ := execLoopOpen_cases h
    · exact .raised _ (by simp)
    · exact .raised _ (by simp)
    · exact .skipped rfl hz hm
    · exact .advanced rfl rfl (fun ⟨_, h0⟩ => hz h0) (by simp)
  | loopClose =>
    obtain ⟨-, rfl⟩ | ⟨-, hz, rfl⟩ | ⟨-, -, -, rfl⟩ | ⟨-, hz, below, o, hl, rfl⟩ :=
      execLoopClose_cases h
    · exact .raised _ (by simp)
    · exact .advanced rfl rfl (by simp) (fun ⟨_, hne⟩ => hne hz)
    · exact .raised _ (by simp)
    · exact .jumpedBack rfl hz hl
  | input =>
    obtain ⟨-, rfl⟩ | ⟨b, rest, hq, -, rfl⟩ | ⟨b, rest, -, -, rfl⟩ := execInput_cases h
    · exact .raised _ (by simp)
    · exact .inputLost rfl hq
    · exact .advanced rfl rfl (by simp) (by simp)
  | output =>
    obtain ⟨-, rfl⟩ | ⟨-, rfl⟩ := execOutput_cases h
    · exact .raised _ (by simp)
    · exact .advanced rfl rfl (by simp) (by simp)
  | nop op =>
    obtain rfl := execNop_cases (op := op) h
    exact .advanced rfl rfl (by simp) (by simp)

/-- R68's table of `ip`, for the instruction executed. -/
theorem ExecEnd.ip_of_fault_none (h : ExecEnd i s t) (ht : t.fault = none) :
    (∀ c, i = .loopOpen → s.cell s.dp = 0 → matchForward s.program s.ip = .ok c →
      t.ip = c + 1) ∧
    (∀ below o, i = .loopClose → s.cell s.dp ≠ 0 → s.ls = below ++ [o] → t.ip = o + 1) ∧
    (¬ (i = .loopOpen ∧ s.cell s.dp = 0) → ¬ (i = .loopClose ∧ s.cell s.dp ≠ 0) →
      t.ip = s.ip + 1) := by
  cases h with
  | raised => cases ht
  | inputLost => cases ht
  | skipped hi hz hm =>
    exact ⟨by simp [hm], by simp [hi], fun hn _ => absurd ⟨hi, hz⟩ hn⟩
  | jumpedBack hi hz hl =>
    exact ⟨by simp [hi], by simp [hl], fun _ hn => absurd ⟨hi, hz⟩ hn⟩
  | advanced hip _ ho hc =>
    exact ⟨fun _ hi hz _ => absurd ⟨hi, hz⟩ ho, fun _ _ hi hz _ => absurd ⟨hi, hz⟩ hc,
      fun _ _ => congrArg (· + 1) hip⟩

/-- R70's precise fault, for the instruction executed: what completes raises nothing. -/
theorem ExecEnd.state_of_fault {k : FaultKind} (h : ExecEnd i s t) (hs : s.fault = none)
    (ht : t.fault = some k) :
    (i = .input ∧ k = .pointerOutOfRange →
      ∃ b rest, s.inq = b :: rest ∧ t = { s with inq := rest, fault := some k }) ∧
    (¬ (i = .input ∧ k = .pointerOutOfRange) → t = { s with fault := some k }) := by
  cases h with
  | raised k' hk =>
    cases ht
    exact ⟨fun hi => absurd hi hk, fun _ => rfl⟩
  | inputLost hi hq =>
    cases ht
    exact ⟨fun _ => ⟨_, _, hq, rfl⟩, fun hn => absurd ⟨hi, rfl⟩ hn⟩
  | skipped => simp [hs] at ht
  | jumpedBack => simp [hs] at ht
  | advanced _ hf => simp [hf, hs] at ht

end

/-- Settles O28: the table of `ip` for the instruction whose symbol is at `ip`. -/
theorem advanceAfterEveryInstruction : Obligations.AdvanceAfterEveryInstruction := by
  unfold Obligations.AdvanceAfterEveryInstruction
  intro s t h ht
  obtain ⟨-, i, he, hsym⟩ := step_next_exec h
  have hOpen : s.prog s.ip = some opLoopOpen ↔ i = .loopOpen := hsym .loopOpen rfl
  have hClose : s.prog s.ip = some opLoopClose ↔ i = .loopClose := hsym .loopClose rfl
  rw [hOpen, hClose]
  exact (exec_end he).ip_of_fault_none ht

/-- Settles O29: the precise fault of the instruction whose symbol is at `ip`. -/
theorem faultingStepIsPrecise : Obligations.FaultingStepIsPrecise := by
  unfold Obligations.FaultingStepIsPrecise
  intro s t k h ht
  obtain ⟨hs, i, he, hsym⟩ := step_next_exec h
  have hInput : s.prog s.ip = some opInput ↔ i = .input := hsym .input rfl
  rw [hInput]
  exact (exec_end he).state_of_fault hs ht

end Sys2Proof.Machine
end

section
/-! Proofs about the cursor moves (41_cursor_move.md): one equation per form. -/

namespace Sys2Proof.Machine

/-- cursor-right completes in every state (R75). -/
theorem exec_cursorRight (s : State) :
    exec .cursorRight s = .next (advance (s.setDp (s.dp + 1))) := complete_eq _

/-- cursor-left completes at every address but 0, within the tape or beyond it (R76). -/
theorem exec_cursorLeft_of_pos {s : State} (h : 0 < s.dp) :
    exec .cursorLeft s = .next (advance (s.setDp (s.dp - 1))) := by
  simp only [exec, execCursorLeft, if_neg h.ne', complete_eq]

/-- cursor-left at address 0 faults, and writes nothing else (R76). -/
theorem exec_cursorLeft_of_zero {s : State} (h : s.dp = 0) :
    exec .cursorLeft s = .next (s.setFault (some .pointerOutOfRange)) := by
  simp only [exec, execCursorLeft, if_pos h, raise_eq]

/-- Settles O5: the opcode is cursor-right's own symbol, and its one form completes. -/
theorem cursorRightResult : Obligations.CursorRightResult := by
  unfold Obligations.CursorRightResult
  exact ⟨decodeByte_encodeByte (i := .cursorRight) rfl, exec_cursorRight⟩

/-- Settles O6: the opcode is cursor-left's own symbol, and `dp` selects the form. -/
theorem cursorLeftResult : Obligations.CursorLeftResult := by
  unfold Obligations.CursorLeftResult
  exact ⟨decodeByte_encodeByte (i := .cursorLeft) rfl,
    fun _ => ⟨exec_cursorLeft_of_pos, exec_cursorLeft_of_zero⟩⟩

end Sys2Proof.Machine
end

section
/-! Proofs about cell arithmetic (42_cell_arith.md): increment and decrement are one
instruction over either operation of the unit. -/

namespace Sys2Proof.Machine

/-- Cell arithmetic within the tape: the operation is applied to the cell at `dp`. -/
theorem readCell_writeCell_of_lt (f : Byte → Byte) {s : State} (h : s.dp < s.tapeSize) :
    (readCell s fun v => writeCell (f v) s) =
      .next (advance (s.setTape (Memory.write s.tape s.dp (f (s.cell s.dp))))) := by
  rw [readCell_of_lt _ h, writeCell_of_lt _ h]

/-- Cell arithmetic that adds `n` modulo 256, within the tape: the cell at `dp`, every
other cell, and the frame (R80, R81). -/
theorem readCell_writeCell_result {f : Byte → Byte} {n : Nat}
    (hf : ∀ v, (f v).toNat = (v.toNat + n) % 256) {s : State} (h : s.dp < s.tapeSize) :
    ∃ t, (readCell s fun v => writeCell (f v) s) = .next t ∧
      (t.cell s.dp).toNat = ((s.cell s.dp).toNat + n) % 256 ∧
      (∀ a, a ≠ s.dp → t.cell a = s.cell a) ∧
      t = { s with tape := t.tape, ip := s.ip + 1 } := by
  refine ⟨_, readCell_writeCell_of_lt f h, ?_, Memory.read_write_other s.tape s.dp _, rfl⟩
  rw [advance_cell, State.setTape_cell, Memory.read_write_same, hf]

/-- Settles O7: the opcode is cell-increment's own symbol, its operation adds 1, and the
read's check selects the form. -/
theorem cellIncrementResult : Obligations.CellIncrementResult := by
  unfold Obligations.CellIncrementResult
  exact ⟨decodeByte_encodeByte (i := .cellIncrement) rfl,
    fun _ => ⟨readCell_writeCell_result cellSucc_toNat, readCell_of_le _⟩⟩

/-- Settles O8: the opcode is cell-decrement's own symbol, its operation adds 255, and the
read's check selects the form. -/
theorem cellDecrementResult : Obligations.CellDecrementResult := by
  unfold Obligations.CellDecrementResult
  exact ⟨decodeByte_encodeByte (i := .cellDecrement) rfl,
    fun _ => ⟨readCell_writeCell_result cellPred_toNat, readCell_of_le _⟩⟩

end Sys2Proof.Machine
end

section
/-! Proofs about the forward scan of loop control (43_loop_control.md R89): the counter
`depth` holds what the closes have yet to outnumber the opens by, so the first position
where it is 0 is the least balancing one. -/

namespace Sys2Proof.Machine

/-- Among the first `k + 1` of these symbols the loop-closes outnumber the loop-opens by
exactly `d`: what `ClosesOutnumberByOne` says of the symbols after `o`, for every count. -/
def ClosesOutnumberBy (bs : List Byte) (d k : Nat) : Prop :=
  k < bs.length ∧
    (bs.take (k + 1)).count opLoopClose = (bs.take (k + 1)).count opLoopOpen + d

theorem not_closesOutnumberBy_nil (d k : Nat) : ¬ ClosesOutnumberBy [] d k :=
  fun h => Nat.not_lt_zero k h.1

/-- One symbol moved from the count to the counter, which does what R89 says of it. -/
theorem count_cons_eq_iff_nestDepth (b : Byte) (bs : List Byte) {d : Nat} (hd : 1 ≤ d) :
    (b :: bs).count opLoopClose = (b :: bs).count opLoopOpen + d ↔
      bs.count opLoopClose = bs.count opLoopOpen + nestDepth b d := by
  have hne : opLoopOpen ≠ opLoopClose := by decide
  by_cases ho : b = opLoopOpen
  · subst ho
    rw [List.count_cons_of_ne hne, List.count_cons_self, nestDepth_open]
    omega
  · by_cases hc : b = opLoopClose
    · subst hc
      rw [List.count_cons_self, List.count_cons_of_ne hne.symm, nestDepth_close]
      omega
    · rw [List.count_cons_of_ne hc, List.count_cons_of_ne ho, nestDepth_other ho hc]

/-- The first symbol alone makes the count exactly if it takes the counter to 0. -/
theorem closesOutnumberBy_cons_zero (b : Byte) (bs : List Byte) {d : Nat} (hd : 1 ≤ d) :
    ClosesOutnumberBy (b :: bs) d 0 ↔ nestDepth b d = 0 := by
  have h := count_cons_eq_iff_nestDepth b [] hd
  simpa [ClosesOutnumberBy, eq_comm] using h

/-- Later positions: the symbols after the first make what the counter is left at. -/
theorem closesOutnumberBy_cons_succ (b : Byte) (bs : List Byte) {d : Nat} (hd : 1 ≤ d)
    (k : Nat) :
    ClosesOutnumberBy (b :: bs) d (k + 1) ↔ ClosesOutnumberBy bs (nestDepth b d) k := by
  simp only [ClosesOutnumberBy, List.take_succ_cons, List.length_cons, Nat.add_lt_add_iff_right,
    count_cons_eq_iff_nestDepth b _ hd]

/-- A scan from `sp` at depth `d` returns the least position at which the loop-closes
outnumber the loop-opens by `d`. -/
theorem scan_eq_ok_iff {bs : List Byte} {sp d : Nat} (hd : 1 ≤ d) (k : Nat) :
    scan bs sp d = .ok (sp + k) ↔
      ClosesOutnumberBy bs d k ∧ ∀ j < k, ¬ ClosesOutnumberBy bs d j := by
  induction bs generalizing sp d k with
  | nil => simp [scan, not_closesOutnumberBy_nil]
  | cons b bs ih =>
    have hzero := closesOutnumberBy_cons_zero b bs hd
    have hsucc := closesOutnumberBy_cons_succ b bs hd
    by_cases h0 : nestDepth b d = 0
    · cases k with
      | zero => simp [scan, hzero, h0]
      | succ k =>
        have hfirst := hzero.mpr h0
        simp only [scan, h0, if_true, Except.ok.injEq]
        exact ⟨by omega, fun ⟨_, hleast⟩ => absurd hfirst (hleast 0 (Nat.succ_pos k))⟩
    · simp only [scan, if_neg h0]
      cases k with
      | zero =>
        have hlater : scan bs (sp + 1) (nestDepth b d) ≠ .ok sp :=
          fun h => absurd (scan_ok_bounds h).1 (Nat.not_succ_le_self sp)
        simp [hzero, h0, hlater]
      | succ k =>
        have ih := ih (sp := sp + 1) (Nat.one_le_iff_ne_zero.mpr h0) k
        rw [Nat.add_right_comm] at ih
        simp only [Nat.forall_lt_succ_left, hzero, hsucc, h0, not_false_eq_true, true_and]
        exact ih

/-- R89's count of the symbols at `o+1 .. c` is the count of the symbols the scan is
given. -/
theorem closesOutnumberByOne_iff (program : List Byte) (o k : Nat) :
    ClosesOutnumberByOne program o (o + 1 + k) ↔
      ClosesOutnumberBy (program.drop (o + 1)) 1 k := by
  have hlen : (o < o + 1 + k ∧ o + 1 + k < program.length) ↔
      k < (program.drop (o + 1)).length := by
    rw [List.length_drop]
    omega
  have hsym : (program.take (o + 1 + k + 1)).drop (o + 1) =
      (program.drop (o + 1)).take (k + 1) := by
    rw [List.take_drop, Nat.add_assoc]
  rw [ClosesOutnumberByOne, ClosesOutnumberBy, ← and_assoc, hlen, hsym]

/-- R89, where `MatchForward` returns. -/
theorem matchForward_eq_ok_iff (program : List Byte) (o c : Nat) :
    matchForward program o = .ok c ↔
      ClosesOutnumberByOne program o c ∧
        ∀ c' < c, ¬ ClosesOutnumberByOne program o c' := by
  by_cases hc : o < c
  · obtain ⟨k, rfl⟩ := Nat.exists_eq_add_of_le hc
    rw [matchForward, scan_eq_ok_iff (le_refl 1), closesOutnumberByOne_iff]
    refine and_congr_right fun _ => ⟨fun h c' hlt hc' => ?_, fun h j hj hj' => ?_⟩
    · obtain ⟨j, rfl⟩ := Nat.exists_eq_add_of_le hc'.1
      exact h j (by omega) ((closesOutnumberByOne_iff program o j).mp hc')
    · exact h (o + 1 + j) (by omega) ((closesOutnumberByOne_iff program o j).mpr hj')
  · exact ⟨fun h => absurd (matchForward_ok h).1 hc, fun h => absurd h.1.1 hc⟩

/-- UnterminatedLoop is raised exactly where no position is returned. -/
theorem matchForward_eq_error_iff (program : List Byte) (o : Nat) :
    matchForward program o = .error .unterminatedLoop ↔
      ∀ c, matchForward program o ≠ .ok c := by
  cases h : matchForward program o with
  | ok c => simp
  | error k => simp [matchForward_error h]

/-- Settles O22: the scan returns the least position, and one that exists has a least. -/
theorem scanReturnsLeastBalancingClose : Obligations.ScanReturnsLeastBalancingClose := by
  classical
  unfold Obligations.ScanReturnsLeastBalancingClose
  refine fun program o _ => ⟨matchForward_eq_ok_iff program o, ?_⟩
  rw [matchForward_eq_error_iff]
  constructor
  · intro hnone c hc
    have hex : ∃ c, ClosesOutnumberByOne program o c := ⟨c, hc⟩
    exact hnone (Nat.find hex)
      ((matchForward_eq_ok_iff program o _).mpr ⟨Nat.find_spec hex, fun _ => Nat.find_min hex⟩)
  · exact fun hnone c hc => hnone c ((matchForward_eq_ok_iff program o c).mp hc).1

end Sys2Proof.Machine
end

section
/-! Proofs about output (44_io.md R101, R103): its two forms, and that every instruction
runs the same whatever `out` holds, since no instruction reads it and only output writes it. -/

namespace Sys2Proof.Machine

/-- output within the tape appends the cell at `dp` and completes (R101). -/
theorem exec_output_of_lt {s : State} (h : s.dp < s.tapeSize) :
    exec .output s = .next (advance (s.setOut (s.out ++ [s.cell s.dp]))) :=
  readCell_of_lt _ h

/-- output beyond the tape faults in its read, and writes nothing else (R101). -/
theorem exec_output_of_le {s : State} (h : s.tapeSize ≤ s.dp) :
    exec .output s = .next (s.setFault (some .pointerOutOfRange)) :=
  readCell_of_le _ h

/-- Settles O12: the opcode is output's own symbol, and the read's check selects the form. -/
theorem outputResult : Obligations.OutputResult := by
  unfold Obligations.OutputResult
  exact ⟨decodeByte_encodeByte (i := .output) rfl, fun _ => ⟨exec_output_of_lt, exec_output_of_le⟩⟩

/-! ### No instruction reads `out` -/

/-- The same outcome, with `o` in the OutputBuffer of its next state. -/
def outcomeSetOut (o : List Byte) : StepOutcome → StepOutcome
  | .next t => .next (t.setOut o)
  | .fault r => .fault r
  | .refused r => .refused r

section
variable (s : State) (o : List Byte)

/-- The read of the cell at `dp` does not depend on `out`, so the instruction does not
where the rest of it does not. -/
theorem readCell_setOut {rest rest' : Byte → StepOutcome}
    (hrest : ∀ v, rest' v = outcomeSetOut o (rest v)) :
    readCell (s.setOut o) rest' = outcomeSetOut o (readCell s rest) := by
  rcases Nat.lt_or_ge s.dp s.tapeSize with hd | hd
  · rw [readCell_of_lt rest hd, readCell_of_lt (s := s.setOut o) rest' hd]
    exact hrest _
  · rw [readCell_of_le rest hd, readCell_of_le (s := s.setOut o) rest' hd]
    rfl

/-- The write of the cell at `dp` does not depend on `out`. -/
theorem writeCell_setOut (v : Byte) :
    writeCell v (s.setOut o) = outcomeSetOut o (writeCell v s) := by
  rcases Nat.lt_or_ge s.dp s.tapeSize with hd | hd
  · rw [writeCell_of_lt v hd, writeCell_of_lt (s := s.setOut o) v hd]
    rfl
  · rw [writeCell_of_le v hd, writeCell_of_le (s := s.setOut o) v hd]
    rfl

theorem execCursorLeft_setOut :
    execCursorLeft (s.setOut o) = outcomeSetOut o (execCursorLeft s) := by
  unfold execCursorLeft
  rw [State.setOut_dp]
  split <;> rfl

theorem execLoopOpen_setOut : execLoopOpen (s.setOut o) = outcomeSetOut o (execLoopOpen s) := by
  refine readCell_setOut s o fun v => ?_
  rw [State.setOut_program, State.setOut_ip]
  cases isZero v with
  | false => rfl
  | true => cases matchForward s.program s.ip <;> rfl

theorem execLoopClose_setOut :
    execLoopClose (s.setOut o) = outcomeSetOut o (execLoopClose s) := by
  refine readCell_setOut s o fun v => ?_
  rw [lsTop_eq, lsTop_eq, State.setOut_ls]
  cases isZero v with
  | true => rfl
  | false => cases s.ls.getLast? <;> rfl

theorem execInput_setOut : execInput (s.setOut o) = outcomeSetOut o (execInput s) := by
  unfold execInput
  cases hq : s.inq with
  | nil =>
    rw [inputNext_of_nil hq, inputNext_of_nil (s := s.setOut o) hq]
    rfl
  | cons b rest =>
    rw [inputNext_of_cons hq, inputNext_of_cons (s := s.setOut o) hq]
    exact writeCell_setOut (s.setInq rest) o b

/-- Every instruction but output neither reads nor writes `out` (R103). -/
theorem exec_setOut_of_ne_output {i : Instr} (hi : i ≠ .output) :
    exec i (s.setOut o) = outcomeSetOut o (exec i s) := by
  cases i with
  | cursorRight => rfl
  | cursorLeft => exact execCursorLeft_setOut s o
  | cellIncrement => exact readCell_setOut s o fun v => writeCell_setOut s o (cellSucc v)
  | cellDecrement => exact readCell_setOut s o fun v => writeCell_setOut s o (cellPred v)
  | loopOpen => exact execLoopOpen_setOut s o
  | loopClose => exact execLoopClose_setOut s o
  | input => exact execInput_setOut s o
  | output => exact absurd rfl hi
  | nop op => rfl

/-- Whatever `out` holds, an instruction appends the same bytes to it and leaves the same
everywhere else (R103). -/
theorem exec_setOut (i : Instr) :
    ∃ (t : State) (added : List Byte), ∀ o,
      exec i (s.setOut o) = .next (t.setOut (o ++ added)) := by
  by_cases hi : i = .output
  · subst hi
    rcases Nat.lt_or_ge s.dp s.tapeSize with hd | hd
    · exact ⟨advance s, [s.cell s.dp], fun o => exec_output_of_lt (s := s.setOut o) hd⟩
    · refine ⟨s.setFault (some .pointerOutOfRange), [], fun o => ?_⟩
      rw [List.append_nil]
      exact exec_output_of_le (s := s.setOut o) hd
  · obtain ⟨t, ht⟩ := exec_answers_next i s
    refine ⟨t, [], fun o => ?_⟩
    rw [exec_setOut_of_ne_output s o hi, ht, List.append_nil]
    rfl

end

/-! ### Only output writes `out` -/

section
variable {i : Instr} {s t : State}

/-- An instruction that runs the same with its own `out` put back leaves `out` alone. -/
theorem exec_out_of_ne_output (hi : i ≠ .output) (h : exec i s = .next t) : t.out = s.out := by
  have hback := exec_setOut_of_ne_output s s.out hi
  rw [h] at hback
  have ht : t = t.setOut s.out := Host.Outcome.next.inj (h.symm.trans hback)
  calc t.out = (t.setOut s.out).out := congrArg State.out ht
    _ = s.out := State.setOut_out t s.out

/-- An instruction that changes `out` is an output within the tape, and appends the cell. -/
theorem exec_out_changed (h : exec i s = .next t) (hout : t.out ≠ s.out) :
    i = .output ∧ s.dp < s.tapeSize ∧ t.out = s.out ++ [s.cell s.dp] := by
  by_cases hi : i = .output
  · subst hi
    obtain ⟨-, rfl⟩ | ⟨hd, rfl⟩ := execOutput_cases h
    · exact absurd rfl hout
    · exact ⟨rfl, hd, rfl⟩
  · exact absurd (exec_out_of_ne_output hi h) hout

end

/-- Settles O21: a change of `out` is an output's, and every instruction commutes with
putting other bytes into `out` beforehand. -/
theorem outputBufferIsAppendOnly : Obligations.OutputBufferIsAppendOnly := by
  unfold Obligations.OutputBufferIsAppendOnly
  refine ⟨emit_eq, fun s t h hout => ?_, fun i s => exec_setOut s i⟩
  obtain ⟨-, i, he, hsym⟩ := step_next_exec h
  obtain ⟨hi, hchange⟩ := exec_out_changed he hout
  exact ⟨(hsym .output rfl).mpr hi, hchange⟩

end Sys2Proof.Machine
end

section
/-! Proofs about the no-operation class (45_nop.md): which symbols are of it, and its one
form. -/

namespace Sys2Proof.Machine

/-- A no-operation is well-formed exactly if its symbol is none of the eight operations'. -/
theorem nop_wf_iff {op : Byte} : (Instr.nop op).wf = true ↔ op ∉ operationSymbols := by
  rw [Instr.wf, Bool.not_eq_true', List.contains_eq_mem, decide_eq_false_iff_not]

/-- A symbol that is none of the eight operations' decodes to the no-operation that carries
it (R108). -/
theorem decodeByte_of_not_mem_operationSymbols {b : Byte} (h : b ∉ operationSymbols) :
    decodeByte b = .nop b :=
  decodeByte_encodeByte (i := .nop b) (nop_wf_iff.mpr h)

/-- nop completes in every state, whatever symbol it carries (R108). -/
theorem exec_nop (op : Byte) (s : State) : exec (.nop op) s = .next (advance s) := complete_eq s

/-- Settles O13: the listed bytes are the operations' symbols, and nop's one form completes. -/
theorem nopResult : Obligations.NopResult := by
  unfold Obligations.NopResult
  exact ⟨fun _ => decodeByte_of_not_mem_operationSymbols, exec_nop⟩

end Sys2Proof.Machine
end

section
/-! Proofs about exceptions (60_exceptions.md): which fault an instruction raises, as a
function of the state that does not look at the fault register, and that this is all an
instruction does to that register. -/

namespace Sys2Proof.Machine

/-! ### The causes of a fault (60_exceptions.md section 1) -/

/-- The fault of an access to the cell at `dp` (R111). -/
def accessFault (s : State) : Option FaultKind :=
  if s.tapeSize ≤ s.dp then some .pointerOutOfRange else none

/-- The fault of the forward scan from `o` (R114). -/
def scanFault (program : List Byte) (o : Nat) : Option FaultKind :=
  match matchForward program o with
  | .error k => some k
  | .ok _ => none

/-- The fault an instruction raises; where two are possible, the first one checked. -/
def faultRaised (i : Instr) (s : State) : Option FaultKind :=
  match i with
  | .cursorRight | .nop _ => none
  | .cursorLeft => if s.dp = 0 then some .pointerOutOfRange else none
  | .cellIncrement | .cellDecrement | .output => accessFault s
  | .input => (if s.inq = [] then some .inputUnavailable else none).or (accessFault s)
  | .loopOpen =>
    (accessFault s).or (if s.cell s.dp = 0 then scanFault s.program s.ip else none)
  | .loopClose =>
    (accessFault s).or
      (if s.cell s.dp ≠ 0 ∧ s.ls = [] then some .unmatchedLoopClose else none)

theorem accessFault_of_lt {s : State} (h : s.dp < s.tapeSize) : accessFault s = none :=
  if_neg (Nat.not_le.mpr h)

theorem accessFault_of_le {s : State} (h : s.tapeSize ≤ s.dp) :
    accessFault s = some .pointerOutOfRange := if_pos h

@[simp] theorem accessFault_eq_none_iff {s : State} :
    accessFault s = none ↔ s.dp < s.tapeSize := by simp [accessFault]

@[simp] theorem accessFault_eq_some_iff {s : State} {k : FaultKind} :
    accessFault s = some k ↔ s.tapeSize ≤ s.dp ∧ k = .pointerOutOfRange := by
  simp [accessFault, eq_comm]

@[simp] theorem scanFault_eq_some_iff {program : List Byte} {o : Nat} {k : FaultKind} :
    scanFault program o = some k ↔
      (∀ c, matchForward program o ≠ .ok c) ∧ k = .unterminatedLoop := by
  unfold scanFault
  cases h : matchForward program o with
  | ok c => simp
  | error k' => simp [matchForward_error h, eq_comm]

/-- R113: only a loop-close in range, on a non-zero cell, with an empty LoopStack. -/
theorem faultRaised_eq_unmatchedLoopClose_iff {i : Instr} {s : State} :
    faultRaised i s = some .unmatchedLoopClose ↔
      i = .loopClose ∧ s.dp < s.tapeSize ∧ s.cell s.dp ≠ 0 ∧ s.ls = [] := by
  cases i with
  | loopClose => simp [faultRaised]
  | _ => simp [faultRaised]

/-- R114: only a loop-open in range, on a zero cell, with no match ahead. -/
theorem faultRaised_eq_unterminatedLoop_iff {i : Instr} {s : State} :
    faultRaised i s = some .unterminatedLoop ↔
      i = .loopOpen ∧ s.dp < s.tapeSize ∧ s.cell s.dp = 0 ∧
        ∀ c, matchForward s.program s.ip ≠ .ok c := by
  cases i with
  | loopOpen => simp [faultRaised]
  | _ => simp [faultRaised]

/-! ### No instruction reads the fault register (R119) -/

/-- From `s`, whatever its fault register holds, `run` leaves the same state but for that
register, in which it records the fault `r`, or what was there if `r` is none. -/
def RaisesOnly (run : State → StepOutcome) (s : State) (r : Option FaultKind) : Prop :=
  ∃ t : State, ∀ f, run (s.setFault f) = .next (t.setFault (r.or f))

section
variable {s : State}

theorem raisesOnly_of_raise {run : State → StepOutcome} {k : FaultKind}
    (h : ∀ f, run (s.setFault f) = raise k (s.setFault f)) : RaisesOnly run s (some k) :=
  ⟨s, h⟩

theorem raisesOnly_of_complete {run : State → StepOutcome} {u : State}
    (h : ∀ f, run (s.setFault f) = complete (u.setFault f)) : RaisesOnly run s none :=
  ⟨advance u, h⟩

theorem RaisesOnly.of_eq {run run' : State → StepOutcome} {u : State} {r : Option FaultKind}
    (h : RaisesOnly run' u r) (heq : ∀ f, run (s.setFault f) = run' (u.setFault f)) :
    RaisesOnly run s r := by
  obtain ⟨t, ht⟩ := h
  exact ⟨t, fun f => (heq f).trans (ht f)⟩

/-- A read of the cell at `dp` and what follows it: the read's fault comes first. -/
theorem raisesOnly_readCell {rest : State → Byte → StepOutcome} {r : Option FaultKind}
    (hrest : RaisesOnly (rest · (s.cell s.dp)) s r) :
    RaisesOnly (fun u => readCell u (rest u)) s ((accessFault s).or r) := by
  rcases Nat.lt_or_ge s.dp s.tapeSize with hd | hd
  · rw [accessFault_of_lt hd]
    exact hrest.of_eq fun f => readCell_of_lt (s := s.setFault f) _ hd
  · rw [accessFault_of_le hd]
    exact raisesOnly_of_raise fun f => readCell_of_le (s := s.setFault f) _ hd

theorem raisesOnly_writeCell (v : Byte) : RaisesOnly (writeCell v) s (accessFault s) := by
  rcases Nat.lt_or_ge s.dp s.tapeSize with hd | hd
  · rw [accessFault_of_lt hd]
    exact raisesOnly_of_complete (u := s.setTape (Memory.write s.tape s.dp v))
      fun f => writeCell_of_lt (s := s.setFault f) v hd
  · rw [accessFault_of_le hd]
    exact raisesOnly_of_raise fun f => writeCell_of_le (s := s.setFault f) v hd

/-- Cell arithmetic: the write checks what the read has checked. -/
theorem raisesOnly_readCell_writeCell (g : Byte → Byte) :
    RaisesOnly (fun u => readCell u fun v => writeCell (g v) u) s (accessFault s) := by
  have h := raisesOnly_readCell (rest := fun u v => writeCell (g v) u)
    (raisesOnly_writeCell (s := s) (g (s.cell s.dp)))
  rwa [Option.or_self] at h

theorem execCursorLeft_raisesOnly : RaisesOnly execCursorLeft s (faultRaised .cursorLeft s) := by
  rcases Nat.eq_zero_or_pos s.dp with h | h
  · rw [faultRaised, if_pos h]
    exact raisesOnly_of_raise fun f => exec_cursorLeft_of_zero (s := s.setFault f) h
  · rw [faultRaised, if_neg h.ne']
    exact raisesOnly_of_complete (u := s.setDp (s.dp - 1))
      fun f => exec_cursorLeft_of_pos (s := s.setFault f) h

theorem execLoopOpen_raisesOnly : RaisesOnly execLoopOpen s (faultRaised .loopOpen s) := by
  refine raisesOnly_readCell ?_
  by_cases hz : s.cell s.dp = 0
  · rw [if_pos hz, isZero_of_eq hz, scanFault]
    cases hm : matchForward s.program s.ip with
    | error k =>
      exact raisesOnly_of_raise fun f => by
        rw [State.setFault_program, State.setFault_ip, hm]
        rfl
    | ok c =>
      exact raisesOnly_of_complete (u := s.setIp c) fun f => by
        rw [State.setFault_program, State.setFault_ip, hm]
        rfl
  · rw [if_neg hz, isZero_of_ne hz]
    exact raisesOnly_of_complete (u := lsPush s.ip s) fun _ => rfl

theorem execLoopClose_raisesOnly : RaisesOnly execLoopClose s (faultRaised .loopClose s) := by
  refine raisesOnly_readCell ?_
  by_cases hz : s.cell s.dp = 0
  · rw [if_neg (fun h => h.1 hz), isZero_of_eq hz]
    exact raisesOnly_of_complete (u := lsPop s) fun _ => rfl
  · rw [isZero_of_ne hz]
    cases hl : s.ls.getLast? with
    | none =>
      rw [if_pos ⟨hz, List.getLast?_eq_none_iff.mp hl⟩]
      exact raisesOnly_of_raise fun f => by
        rw [lsTop_eq, State.setFault_ls, hl]
        rfl
    | some o =>
      rw [if_neg (fun h => by simp [h.2] at hl)]
      exact raisesOnly_of_complete (u := s.setIp o) fun f => by
        rw [lsTop_eq, State.setFault_ls, hl]
        rfl

theorem execInput_raisesOnly : RaisesOnly execInput s (faultRaised .input s) := by
  cases hq : s.inq with
  | nil =>
    rw [faultRaised, if_pos hq]
    exact raisesOnly_of_raise fun f => by
      rw [execInput, inputNext_of_nil (s := s.setFault f) hq]
  | cons b rest =>
    rw [faultRaised, if_neg (by simp [hq])]
    exact (raisesOnly_writeCell (s := s.setInq rest) b).of_eq fun f => by
      rw [execInput, inputNext_of_cons (s := s.setFault f) hq]
      rfl

theorem execOutput_raisesOnly : RaisesOnly execOutput s (faultRaised .output s) := by
  have h := raisesOnly_readCell (s := s) (rest := fun u v => complete (emit v u))
    (raisesOnly_of_complete (u := emit (s.cell s.dp) s) fun _ => rfl)
  rwa [Option.or_none] at h

end

/-- R117 and R119: every instruction raises the fault its causes give it, and else neither
reads nor writes the fault register. -/
theorem exec_raisesOnly (i : Instr) (s : State) : RaisesOnly (exec i) s (faultRaised i s) := by
  cases i with
  | cursorRight => exact raisesOnly_of_complete (u := s.setDp (s.dp + 1)) fun _ => rfl
  | cursorLeft => exact execCursorLeft_raisesOnly
  | cellIncrement => exact raisesOnly_readCell_writeCell cellSucc
  | cellDecrement => exact raisesOnly_readCell_writeCell cellPred
  | loopOpen => exact execLoopOpen_raisesOnly
  | loopClose => exact execLoopClose_raisesOnly
  | input => exact execInput_raisesOnly
  | output => exact execOutput_raisesOnly
  | nop op => exact raisesOnly_of_complete (u := s) fun _ => rfl

/-- The fault register after an instruction executed with no fault recorded. -/
theorem exec_fault {i : Instr} {s t : State} (h : exec i s = .next t) (hs : s.fault = none) :
    t.fault = faultRaised i s := by
  obtain ⟨u, hu⟩ := exec_raisesOnly i s
  have hnone : s.setFault none = s := by rw [← hs]; rfl
  have ht := hu none
  rw [hnone, h, Option.or_none] at ht
  cases ht
  rfl

/-! ### The obligations -/

/-- Settles O30: a step records the fault of the instruction whose symbol is at `ip`, and
each loop fault is raised by one instruction on one condition. -/
theorem loopFaultCauses : Obligations.LoopFaultCauses := by
  unfold Obligations.LoopFaultCauses
  intro s t h
  obtain ⟨hf, i, he, hsym⟩ := step_next_exec h
  have hOpen : s.prog s.ip = some opLoopOpen ↔ i = .loopOpen := hsym .loopOpen rfl
  have hClose : s.prog s.ip = some opLoopClose ↔ i = .loopClose := hsym .loopClose rfl
  rw [exec_fault he hf, hOpen, hClose]
  exact ⟨faultRaised_eq_unmatchedLoopClose_iff, faultRaised_eq_unterminatedLoop_iff⟩

/-- Settles O32: a Faulted state is not Running, an instruction does nothing to the fault
register but raise, and a reset does not look at the state before it. -/
theorem faultIsFinal : Obligations.FaultIsFinal := by
  unfold Obligations.FaultIsFinal
  refine ⟨fun s k hk => ?_, fun i s => ?_, fun l s => ⟨rfl, rfl, fun _ => rfl⟩⟩
  · have hs : s.runState ≠ .running := by simp [runState_running_iff, hk]
    exact ⟨fun t ht => hs ((step_enabled_iff_running s).mp ⟨t, ht⟩),
      fun t => Reaches.eq_of_not_running hs⟩
  · obtain ⟨t, ht⟩ := exec_raisesOnly i s
    cases hr : faultRaised i s with
    | none =>
      rw [hr] at ht
      exact ⟨t, .inl ht⟩
    | some k =>
      rw [hr] at ht
      exact ⟨t, .inr ⟨k, ht⟩⟩

end Sys2Proof.Machine
end

section
/-! Proofs about the host's reset (70_reset_and_hazards.md R135, R139): the launch alone
determines the state it leaves, and so every state of the run after it. -/

namespace Sys2Proof.Machine

/-- R135: a reset overwrites every component with the launch's. -/
@[simp] theorem hostReset_eq (l : Launch) (before : State) :
    hostReset l before = State.resetWith l := rfl

/-- Settles O42: both runs start in the one state the launch gives. -/
theorem runsDoNotCommunicate : Obligations.RunsDoNotCommunicate := by
  unfold Obligations.RunsDoNotCommunicate
  intro l before before' t
  rw [hostReset_eq, hostReset_eq]

end Sys2Proof.Machine
end

section
/-! Proofs about the encoding (30_encoding.md R50, R52 to R56): every symbol has one
well-formed instruction and every well-formed instruction one symbol, position by position. -/

namespace Sys2Proof.Machine

/-- Every symbol decodes to a well-formed instruction: one of the eight operations, or the
no-operation of a symbol that is none of theirs (R55). -/
theorem decodeByte_wf (b : Byte) : (decodeByte b).wf = true := by
  by_cases hb : b ∈ operationSymbols
  · have hops : ∀ b ∈ operationSymbols, (decodeByte b).wf = true := by decide
    exact hops b hb
  · rw [decodeByte_of_not_mem_operationSymbols hb]
    exact nop_wf_iff.mpr hb

/-- The symbol of a well-formed instruction decodes to it, whatever follows. -/
theorem decode_encode {i : Instr} (hi : i.wf = true) (rest : List Byte) :
    decode (encode i ++ rest) = .ok (i, rest) := by
  rw [encode_eq, List.singleton_append, decode_cons, decodeByte_encodeByte hi]

/-- One symbol per instruction, in order (R50, R56). -/
theorem assemble_eq_map (is : List Instr) : assemble is = is.map encodeByte := by
  induction is with
  | nil => rfl
  | cons i is ih => rw [assemble_cons, ih, List.map_cons]

theorem disassemble_assemble {is : List Instr} (h : ∀ i ∈ is, i.wf = true) :
    disassemble (assemble is) = is := by
  rw [assemble_eq_map, disassemble, List.map_map]
  exact (List.map_congr_left fun i hi => decodeByte_encodeByte (h i hi)).trans (List.map_id is)

theorem assemble_disassemble (bs : List Byte) : assemble (disassemble bs) = bs := by
  rw [assemble_eq_map, disassemble, List.map_map]
  exact List.map_id'' encodeByte_decodeByte bs

/-- Settles O4: assembling maps the encoder over the list and disassembling the decoder, so
each inverse law is the one of a single symbol. -/
theorem assembleDisassembleInverse : Obligations.AssembleDisassembleInverse := by
  unfold Obligations.AssembleDisassembleInverse
  refine ⟨fun _ => disassemble_assemble, fun bs => ⟨assemble_disassemble bs, ?_⟩, fun is k => ?_⟩
  · intro i hi
    obtain ⟨b, -, rfl⟩ := List.mem_map.mp hi
    exact decodeByte_wf b
  · rw [assemble_eq_map, List.getElem?_map]

/-- Settles O3. -/
theorem decodeOfEncode : Obligations.DecodeOfEncode := by
  unfold Obligations.DecodeOfEncode
  exact fun _ rest hi => decode_encode hi rest

/-- Settles O2: the instruction is the one the symbol decodes to. -/
theorem everySymbolDecodes : Obligations.EverySymbolDecodes := by
  unfold Obligations.EverySymbolDecodes
  exact fun b rest => ⟨decodeByte b, decodeByte_wf b,
    by rw [encode_eq, encodeByte_decodeByte], decode_cons b rest⟩

/-- Settles O1: the eight words are the operations' encodings, and none of the ten
neighbours is among the operations' symbols. -/
theorem opcodeMapDecodes : Obligations.OpcodeMapDecodes := by
  unfold Obligations.OpcodeMapDecodes
  refine ⟨decode_encode (i := .cursorRight) rfl [0], decode_encode (i := .cursorLeft) rfl [0],
    decode_encode (i := .cellIncrement) rfl [0], decode_encode (i := .cellDecrement) rfl [0],
    decode_encode (i := .loopOpen) rfl [0], decode_encode (i := .loopClose) rfl [0],
    decode_encode (i := .input) rfl [0], decode_encode (i := .output) rfl [0], fun b hb => ?_⟩
  have hnop : ∀ b ∈ ([0x00, 0x2A, 0x2F, 0x3B, 0x3D, 0x3F, 0x5A, 0x5C, 0x5E, 0xFF] : List Byte),
      b ∉ operationSymbols := by decide
  rw [decode_cons, decodeByte_of_not_mem_operationSymbols (hnop b hb)]

end Sys2Proof.Machine
end

section
/-! Proofs about loop control, input and the primitives they use (43_loop_control.md sections
1 and 3, 44_io.md sections 1 and 2): one equation per form of an instruction. -/

namespace Sys2Proof.Machine

/-! ### loop-open (R87) -/

section
variable {s : State}

theorem exec_loopOpen_of_le (h : s.tapeSize ≤ s.dp) :
    exec .loopOpen s = .next (s.setFault (some .pointerOutOfRange)) := readCell_of_le _ h

theorem exec_loopOpen_skip {c : Nat} (h : s.dp < s.tapeSize) (hz : s.cell s.dp = 0)
    (hm : matchForward s.program s.ip = .ok c) :
    exec .loopOpen s = .next (advance (s.setIp c)) := by
  rw [exec, execLoopOpen, readCell_of_lt _ h, if_pos (isZero_of_eq hz), hm]
  rfl

theorem exec_loopOpen_unterminated (h : s.dp < s.tapeSize) (hz : s.cell s.dp = 0)
    (hm : ∀ c, matchForward s.program s.ip ≠ .ok c) :
    exec .loopOpen s = .next (s.setFault (some .unterminatedLoop)) := by
  rw [exec, execLoopOpen, readCell_of_lt _ h, if_pos (isZero_of_eq hz),
    (matchForward_eq_error_iff s.program s.ip).mpr hm]
  rfl

theorem exec_loopOpen_enter (h : s.dp < s.tapeSize) (hz : s.cell s.dp ≠ 0) :
    exec .loopOpen s = .next (advance (s.setLs (s.ls ++ [s.ip]))) := by
  rw [exec, execLoopOpen, readCell_of_lt _ h, isZero_of_ne hz]
  rfl

/-! ### loop-close (R88, R92) -/

theorem exec_loopClose_of_le (h : s.tapeSize ≤ s.dp) :
    exec .loopClose s = .next (s.setFault (some .pointerOutOfRange)) := readCell_of_le _ h

theorem exec_loopClose_exit (h : s.dp < s.tapeSize) (hz : s.cell s.dp = 0) :
    exec .loopClose s = .next (advance (s.setLs s.ls.dropLast)) := by
  rw [exec, execLoopClose, readCell_of_lt _ h, if_pos (isZero_of_eq hz)]
  rfl

/-- A pop of an empty LoopStack has no effect (R92). -/
theorem setLs_dropLast_of_nil (hl : s.ls = []) : s.setLs s.ls.dropLast = s := by
  rw [hl, List.dropLast_nil, ← hl]
  rfl

theorem exec_loopClose_jumpBack {below : List Nat} {o : Nat} (h : s.dp < s.tapeSize)
    (hz : s.cell s.dp ≠ 0) (hl : s.ls = below ++ [o]) :
    exec .loopClose s = .next (advance (s.setIp o)) := by
  rw [exec, execLoopClose, readCell_of_lt _ h, isZero_of_ne hz, lsTop_eq, hl,
    List.getLast?_concat]
  rfl

theorem exec_loopClose_unmatched (h : s.dp < s.tapeSize) (hz : s.cell s.dp ≠ 0)
    (hl : s.ls = []) : exec .loopClose s = .next (s.setFault (some .unmatchedLoopClose)) := by
  rw [exec, execLoopClose, readCell_of_lt _ h, isZero_of_ne hz, lsTop_eq, hl]
  rfl

/-! ### input (R100) -/

theorem exec_input_of_nil (h : s.inq = []) :
    exec .input s = .next (s.setFault (some .inputUnavailable)) := by
  rw [exec, execInput, inputNext_of_nil h]
  rfl

theorem exec_input_of_lt {b : Byte} {rest : List Byte} (hq : s.inq = b :: rest)
    (h : s.dp < s.tapeSize) :
    exec .input s = .next (advance ((s.setInq rest).setTape (Memory.write s.tape s.dp b))) := by
  rw [exec, execInput, inputNext_of_cons hq]
  exact writeCell_of_lt (s := s.setInq rest) b h

theorem exec_input_of_le {b : Byte} {rest : List Byte} (hq : s.inq = b :: rest)
    (h : s.tapeSize ≤ s.dp) :
    exec .input s = .next ((s.setInq rest).setFault (some .pointerOutOfRange)) := by
  rw [exec, execInput, inputNext_of_cons hq]
  exact writeCell_of_le (s := s.setInq rest) b h

end

/-! ### The obligations -/

/-- Settles O9: the opcode is loop-open's own symbol; the range check, the cell and the scan
select the form. -/
theorem loopOpenResult : Obligations.LoopOpenResult := by
  unfold Obligations.LoopOpenResult
  exact ⟨decodeByte_encodeByte (i := .loopOpen) rfl, fun _ => ⟨exec_loopOpen_of_le,
    fun h hz _ => exec_loopOpen_skip h hz, exec_loopOpen_unterminated, exec_loopOpen_enter⟩⟩

/-- Settles O10: the opcode is loop-close's own symbol; the range check, the cell and the
LoopStack select the form. Both exits are one form, which pops what there is. -/
theorem loopCloseResult : Obligations.LoopCloseResult := by
  unfold Obligations.LoopCloseResult
  refine ⟨decodeByte_encodeByte (i := .loopClose) rfl, fun s => ⟨exec_loopClose_of_le,
    fun h hz below o hl => ?_, fun h hz hl => ?_, fun h hz _ _ => exec_loopClose_jumpBack h hz,
    exec_loopClose_unmatched⟩⟩
  · rw [exec_loopClose_exit h hz, hl, List.dropLast_concat]
    rfl
  · rw [exec_loopClose_exit h hz, setLs_dropLast_of_nil hl]
    rfl

/-- Settles O11: the opcode is input's own symbol; the queue, then the range check of the
write select the form. -/
theorem inputResult : Obligations.InputResult := by
  unfold Obligations.InputResult
  refine ⟨decodeByte_encodeByte (i := .input) rfl, fun s => ⟨exec_input_of_nil,
    fun b rest hq h => ?_, fun _ _ => exec_input_of_le⟩⟩
  exact ⟨_, exec_input_of_lt hq h, Memory.read_write_same s.tape s.dp b,
    Memory.read_write_other s.tape s.dp b, rfl⟩

/-- Settles O14: input looks at the queue first, the loop instructions at the range. -/
theorem faultPriority : Obligations.FaultPriority := by
  unfold Obligations.FaultPriority
  exact fun _ h => ⟨exec_input_of_nil, fun _ => exec_loopOpen_of_le h,
    fun _ => exec_loopClose_of_le h⟩

/-- Settles O19: the four operations are those of a list with its top at the end (R91). -/
theorem loopStackOperations : Obligations.LoopStackOperations := by
  unfold Obligations.LoopStackOperations
  refine fun s => ⟨List.isEmpty_iff, fun _ => rfl, fun below p hl => ⟨?_, ?_⟩,
    setLs_dropLast_of_nil, fun p => ⟨?_, ?_⟩⟩
  · rw [lsTop_eq, hl, List.getLast?_concat]
  · rw [lsPop_eq, hl, List.dropLast_concat]
    rfl
  · rw [lsTop_eq, lsPush_eq, State.setLs_ls, List.getLast?_concat]
  · rw [lsPop_eq, lsPush_eq, State.setLs_ls, List.dropLast_concat]
    rfl

/-- Settles O20. -/
theorem inputNextTakesTheHead : Obligations.InputNextTakesTheHead := by
  unfold Obligations.InputNextTakesTheHead
  exact fun _ => ⟨inputNext_of_nil, fun _ _ => inputNext_of_cons⟩

end Sys2Proof.Machine
end

section
/-! Proofs about which step is taken (40_execution_cycle.md R66, R67): the step of each run
state as one equation. -/

namespace Sys2Proof.Machine

variable {s : State}

/-- A Running state steps by executing the symbol at `ip` (R67). -/
theorem step_of_prog {b : Byte} (hf : s.fault = none) (hb : s.prog s.ip = some b) :
    step s = exec (decodeByte b) s := by
  obtain ⟨hi, rfl⟩ := List.getElem?_eq_some_iff.mp hb
  exact step_of_lt hf hi

theorem step_of_halted (h : s.runState = .halted) : step s = .fault .halted := by
  obtain ⟨hf, hi⟩ := (runState_halted_iff s).mp h
  rw [step, hf, fetchBytes_of_le hi]
  rfl

theorem step_of_faulted {k : FaultKind} (h : s.runState = .faulted k) :
    step s = .fault (.faulted k) := by
  rw [step, (runState_faulted_iff s k).mp h]

/-- Settles O25: both clauses are the one arm of `step` that executes. -/
theorem stepRunsDecodedInstruction : Obligations.StepRunsDecodedInstruction := by
  unfold Obligations.StepRunsDecodedInstruction
  exact ⟨fun s i rest hf hd => by rw [step, hf, hd], fun _ _ => step_of_prog⟩

/-- Settles O27: the three run states have three different answers of `step`. -/
theorem noStepNamesTheRunState : Obligations.NoStepNamesTheRunState := by
  unfold Obligations.NoStepNamesTheRunState
  intro s
  cases hr : s.runState with
  | running =>
    obtain ⟨t, ht⟩ := (step_enabled_iff_running s).mpr hr
    simp [ht]
  | halted => simp [step_of_halted hr]
  | faulted k => simp [step_of_faulted hr]

end Sys2Proof.Machine
end

section
/-! Proofs about the tape as a whole (10_state.md section 4, 20_memory.md section 6) and about
cell arithmetic in a row (42_cell_arith.md R82). -/

namespace Sys2Proof.Machine

/-! ### The sparse memory is the function it reads as -/

/-- The entries of a canonical memory are the cells that do not read as unlisted. -/
theorem Memory.mem_iff_read {m : Memory} (h : Memory.wf m) (c : Host.Cell) :
    c ∈ m ↔ Memory.read m c.1 = c.2 ∧ c.2 ≠ Memory.unlisted := by
  obtain ⟨a, v⟩ := c
  induction m with
  | nil => simpa using fun h0 : Memory.unlisted = v => h0.symm
  | cons d m ih =>
    obtain ⟨k, w⟩ := d
    obtain ⟨hsorted, hlisted⟩ := h
    obtain ⟨hk, hrest⟩ := List.pairwise_cons.mp hsorted
    have ih := ih ⟨hrest, fun c hc => hlisted c (List.mem_cons_of_mem _ hc)⟩
    have hw : w ≠ Memory.unlisted := hlisted (k, w) List.mem_cons_self
    rw [Memory.read_cons]
    by_cases hka : k = a
    · subst hka
      have hnot : (k, v) ∉ m := fun hm => lt_irrefl k (hk _ hm)
      simp only [List.mem_cons, Prod.mk.injEq, true_and, hnot, or_false, if_true]
      exact ⟨fun hv => ⟨hv.symm, hv ▸ hw⟩, fun hv => hv.1.symm⟩
    · simp only [List.mem_cons, Prod.mk.injEq, Ne.symm hka, false_and, false_or, if_neg hka]
      exact ih

/-- Settles O18: canonical memories that read the same have the same entries, and both list
them by rising address. -/
theorem equalReadsEqualTapes : Obligations.EqualReadsEqualTapes := by
  unfold Obligations.EqualReadsEqualTapes
  intro m m' hm hm' hread
  have : Std.Asymm fun c d : Host.Cell => c.1 < d.1 := ⟨fun _ _ h => lt_asymm h⟩
  refine hm.1.eq_of_mem_iff hm'.1 fun c => ?_
  rw [Memory.mem_iff_read hm, Memory.mem_iff_read hm', hread]

/-- Settles O17, by induction on the writes, the last one first. -/
theorem latestWriteIsRead : Obligations.LatestWriteIsRead := by
  unfold Obligations.LatestWriteIsRead
  intro writes
  induction writes using List.reverseRecOn with
  | nil => exact ⟨Memory.wf_nil, fun _ => rfl⟩
  | append_singleton ws w ih =>
    obtain ⟨hwf, hread⟩ := ih
    rw [List.foldl_concat, List.reverse_concat]
    refine ⟨Memory.wf_write _ _ _ hwf, fun a => ?_⟩
    rw [Memory.read_write]
    by_cases h : a = w.1
    · simp [h]
    · rw [if_neg h, List.find?_cons_of_neg (by simpa using Ne.symm h), hread]

/-! ### Cell arithmetic in a row -/

/-- What `k` cell operations in a row that add `n` in all do: the cell at `dp`, every other
cell, and the frame. -/
def CellsAdded (k n : Nat) (s t : State) : Prop :=
  (t.cell s.dp).toNat = ((s.cell s.dp).toNat + n) % 256 ∧
    (∀ a, a ≠ s.dp → t.cell a = s.cell a) ∧ t = { s with tape := t.tape, ip := s.ip + k }

theorem CellsAdded.dp {k n : Nat} {s t : State} (h : CellsAdded k n s t) : t.dp = s.dp := by
  rw [h.2.2]

/-- The cell stays within the tape. -/
theorem CellsAdded.dp_lt {k n : Nat} {s t : State} (h : CellsAdded k n s t)
    (hs : s.dp < s.tapeSize) : t.dp < t.tapeSize := by
  rw [h.2.2]
  exact hs

/-- One after the other. -/
theorem CellsAdded.trans {k k' n n' : Nat} {s t u : State} (h : CellsAdded k n s t)
    (h' : CellsAdded k' n' t u) : CellsAdded (k + k') (n + n') s u := by
  have hdp := h.dp
  obtain ⟨hcell, hother, ht⟩ := h
  obtain ⟨hcell', hother', hu⟩ := h'
  rw [hdp] at hcell' hother'
  refine ⟨by rw [hcell', hcell]; omega, fun a ha => (hother' a ha).trans (hother a ha), ?_⟩
  rw [hu, ht, Nat.add_assoc]

/-- A multiple of 256 added in all gives every cell back. -/
theorem CellsAdded.cell_eq {k n : Nat} {s t : State} (h : CellsAdded k (256 * n) s t) (a : Nat) :
    t.cell a = s.cell a := by
  obtain ⟨hcell, hother, -⟩ := h
  by_cases ha : a = s.dp
  · subst ha
    rw [Nat.add_mul_mod_self_left, Nat.mod_eq_of_lt (s.cell s.dp).isLt] at hcell
    exact BitVec.eq_of_toNat_eq hcell
  · exact hother a ha

/-- An instruction that adds `n` to the cell wherever it is within the tape, `k` times. -/
theorem execTimes_cellsAdded {i : Instr} {n : Nat}
    (hi : ∀ s : State, s.dp < s.tapeSize → ∃ t, exec i s = .next t ∧ CellsAdded 1 n s t) (k : Nat)
    {s : State} (h : s.dp < s.tapeSize) :
    ∃ t, execTimes k i s = .next t ∧ CellsAdded k (n * k) s t := by
  induction k generalizing s with
  | zero => exact ⟨s, rfl, (Nat.mod_eq_of_lt (s.cell s.dp).isLt).symm, fun _ _ => rfl, rfl⟩
  | succ k ih =>
    obtain ⟨t, he, hst⟩ := hi s h
    obtain ⟨u, hu, htu⟩ := ih (hst.dp_lt h)
    refine ⟨u, by simp only [execTimes, he, hu], ?_⟩
    rw [Nat.add_comm k, Nat.mul_add, Nat.mul_one]
    exact hst.trans htu

/-- `k` times one instruction and `k` times another that takes its effect away again. -/
theorem execTimes_undo {i j : Instr} {m n : Nat} (hmn : m + n = 256)
    (hi : ∀ s : State, s.dp < s.tapeSize → ∃ t, exec i s = .next t ∧ CellsAdded 1 m s t)
    (hj : ∀ s : State, s.dp < s.tapeSize → ∃ t, exec j s = .next t ∧ CellsAdded 1 n s t)
    (k : Nat) {s : State} (h : s.dp < s.tapeSize) :
    ∃ t, execTimes k i s = .next t ∧ CellsAdded k (m * k) s t ∧
      ∃ u, execTimes k j t = .next u ∧ ∀ a, u.cell a = s.cell a := by
  obtain ⟨t, ht, hst⟩ := execTimes_cellsAdded hi k h
  obtain ⟨u, hu, htu⟩ := execTimes_cellsAdded hj k (hst.dp_lt h)
  have hback := hst.trans htu
  rw [← Nat.add_mul, hmn] at hback
  exact ⟨t, ht, hst, u, hu, hback.cell_eq⟩

theorem exec_cellIncrement_cellsAdded {s : State} (h : s.dp < s.tapeSize) :
    ∃ t, exec .cellIncrement s = .next t ∧ CellsAdded 1 1 s t :=
  readCell_writeCell_result cellSucc_toNat h

theorem exec_cellDecrement_cellsAdded {s : State} (h : s.dp < s.tapeSize) :
    ∃ t, exec .cellDecrement s = .next t ∧ CellsAdded 1 255 s t :=
  readCell_writeCell_result cellPred_toNat h

/-- Settles O15: an increment adds 1 and a decrement 255, together a whole 256. -/
theorem repeatedCellArithmetic : Obligations.RepeatedCellArithmetic := by
  unfold Obligations.RepeatedCellArithmetic
  intro s k h
  obtain ⟨t, ht, ⟨hcell, hother, hframe⟩, hback⟩ := execTimes_undo (m := 1) (n := 255) rfl
    (fun _ => exec_cellIncrement_cellsAdded) (fun _ => exec_cellDecrement_cellsAdded) k h
  obtain ⟨t', ht', ⟨hcell', hother', hframe'⟩, hback'⟩ := execTimes_undo (m := 255) (n := 1) rfl
    (fun _ => exec_cellDecrement_cellsAdded) (fun _ => exec_cellIncrement_cellsAdded) k h
  rw [Nat.one_mul] at hcell
  exact ⟨⟨t, ht, hcell, hother, hframe, hback⟩, ⟨t', ht', hcell', hother', hframe', hback'⟩⟩

end Sys2Proof.Machine
end

section
/-! The remaining causes of faults (60_exceptions.md R111, R112, R115), and every form an
instruction can take, from which the frame of a step and of a run follows. -/

namespace Sys2Proof.Machine

/-! ### The other causes -/

section
variable {i : Instr} {s t : State}

/-- R111 with the order of the checks: cursor-left at 0, or an access out of range, which an
input makes only with a byte to store. -/
theorem faultRaised_eq_pointerOutOfRange_iff :
    faultRaised i s = some .pointerOutOfRange ↔
      (i = .cursorLeft ∧ s.dp = 0) ∨
      (s.tapeSize ≤ s.dp ∧ (i = .cellIncrement ∨ i = .cellDecrement ∨ i = .output ∨
        i = .loopOpen ∨ i = .loopClose ∨ (i = .input ∧ s.inq ≠ []))) := by
  cases i with
  | input => simp [faultRaised, and_comm]
  | _ => simp [faultRaised]

/-- R115: only an input with an empty queue. -/
theorem faultRaised_eq_inputUnavailable_iff :
    faultRaised i s = some .inputUnavailable ↔ i = .input ∧ s.inq = [] := by
  cases i with
  | input => simp [faultRaised]
  | _ => simp [faultRaised]

/-- R112: code 2 is nobody's. -/
theorem faultRaised_ne_instructionPointerOutOfRange :
    faultRaised i s ≠ some .instructionPointerOutOfRange := by
  cases i with
  | loopOpen => simp [faultRaised]
  | _ => simp [faultRaised]

/-- Settles O31: a step records the fault of the instruction whose symbol is at `ip`. -/
theorem pointerAndInputFaultCauses : Obligations.PointerAndInputFaultCauses := by
  unfold Obligations.PointerAndInputFaultCauses
  intro s t h
  obtain ⟨hf, i, he, hsym⟩ := step_next_exec h
  have hLeft : s.prog s.ip = some opCursorLeft ↔ i = .cursorLeft := hsym .cursorLeft rfl
  have hInc : s.prog s.ip = some opCellIncrement ↔ i = .cellIncrement := hsym .cellIncrement rfl
  have hDec : s.prog s.ip = some opCellDecrement ↔ i = .cellDecrement := hsym .cellDecrement rfl
  have hOut : s.prog s.ip = some opOutput ↔ i = .output := hsym .output rfl
  have hOpen : s.prog s.ip = some opLoopOpen ↔ i = .loopOpen := hsym .loopOpen rfl
  have hClose : s.prog s.ip = some opLoopClose ↔ i = .loopClose := hsym .loopClose rfl
  have hIn : s.prog s.ip = some opInput ↔ i = .input := hsym .input rfl
  rw [exec_fault he hf, hLeft, hInc, hDec, hOut, hOpen, hClose, hIn]
  exact ⟨faultRaised_eq_pointerOutOfRange_iff, faultRaised_eq_inputUnavailable_iff,
    faultRaised_ne_instructionPointerOutOfRange⟩

/-- An instruction that raises a fault, other than an input that has taken its byte, writes
the fault register and nothing else (R70), whatever was recorded there. -/
theorem exec_of_faultRaised {k : FaultKind} (hk : faultRaised i s = some k)
    (hi : ¬ (i = .input ∧ k = .pointerOutOfRange)) :
    exec i s = .next (s.setFault (some k)) := by
  obtain ⟨t, ht⟩ := exec_raisesOnly i s
  rw [hk] at ht
  have hprecise := ((exec_end (ht none)).state_of_fault rfl rfl).2 hi
  calc exec i s = .next (t.setFault (some k)) := ht s.fault
    _ = .next (s.setFault (some k)) := congrArg _ hprecise

/-! ### The forms of an instruction -/

/-- Every form of instruction `i` executed in `s`, and the whole state it leaves. -/
inductive ExecForm (i : Instr) (s : State) : State → Prop where
  /-- A fault that writes nothing else. -/
  | faulted {k : FaultKind} (hk : faultRaised i s = some k)
      (hi : ¬ (i = .input ∧ k = .pointerOutOfRange)) : ExecForm i s (s.setFault (some k))
  /-- An input out of range, which loses the byte it took (R100). -/
  | byteLost {b : Byte} {rest : List Byte} (hi : i = .input) (hq : s.inq = b :: rest)
      (hd : s.tapeSize ≤ s.dp) :
      ExecForm i s ((s.setInq rest).setFault (some .pointerOutOfRange))
  /-- A cursor move (R75, R76). -/
  | moved {d : Nat}
      (hi : (i = .cursorRight ∧ d = s.dp + 1) ∨ (i = .cursorLeft ∧ d + 1 = s.dp)) :
      ExecForm i s (advance (s.setDp d))
  /-- Cell arithmetic (R80, R81). -/
  | wrote {f : Byte → Byte}
      (hi : (i = .cellIncrement ∧ f = cellSucc) ∨ (i = .cellDecrement ∧ f = cellPred))
      (hd : s.dp < s.tapeSize) :
      ExecForm i s (advance (s.setTape (Memory.write s.tape s.dp (f (s.cell s.dp)))))
  /-- An input within the tape (R100). -/
  | byteTaken {b : Byte} {rest : List Byte} (hi : i = .input) (hq : s.inq = b :: rest)
      (hd : s.dp < s.tapeSize) :
      ExecForm i s (advance ((s.setInq rest).setTape (Memory.write s.tape s.dp b)))
  /-- An output within the tape (R101). -/
  | byteOut (hi : i = .output) (hd : s.dp < s.tapeSize) :
      ExecForm i s (advance (s.setOut (s.out ++ [s.cell s.dp])))
  /-- A loop-open that skips (R87). -/
  | skipped {c : Nat} (hi : i = .loopOpen) (hd : s.dp < s.tapeSize) (hz : s.cell s.dp = 0)
      (hm : matchForward s.program s.ip = .ok c) : ExecForm i s (advance (s.setIp c))
  /-- A loop-open that enters (R87). -/
  | entered (hi : i = .loopOpen) (hd : s.dp < s.tapeSize) (hz : s.cell s.dp ≠ 0) :
      ExecForm i s (advance (s.setLs (s.ls ++ [s.ip])))
  /-- A loop-close that exits (R88, R92). -/
  | exited (hi : i = .loopClose) (hd : s.dp < s.tapeSize) (hz : s.cell s.dp = 0) :
      ExecForm i s (advance (s.setLs s.ls.dropLast))
  /-- A loop-close that jumps back (R88). -/
  | jumpedBack {below : List Nat} {o : Nat} (hi : i = .loopClose) (hd : s.dp < s.tapeSize)
      (hz : s.cell s.dp ≠ 0) (hl : s.ls = below ++ [o]) : ExecForm i s (advance (s.setIp o))
  /-- A no-operation (R108). -/
  | idled {op : Byte} (hi : i = .nop op) : ExecForm i s (advance s)

/-- Every instruction takes one of its forms. -/
theorem exec_form (h : exec i s = .next t) : ExecForm i s t := by
  cases i with
  | cursorRight =>
    obtain rfl := execCursorRight_cases h
    exact .moved (.inl ⟨rfl, rfl⟩)
  | cursorLeft =>
    obtain ⟨h0, rfl⟩ | ⟨hpos, rfl⟩ := execCursorLeft_cases h
    · exact .faulted (if_pos h0) (by simp)
    · exact .moved (.inr ⟨rfl, Nat.sub_add_cancel hpos⟩)
  | cellIncrement =>
    obtain ⟨hd, rfl⟩ | ⟨hd, rfl⟩ := execCellIncrement_cases h
    · exact .faulted (accessFault_of_le hd) (by simp)
    · exact .wrote (.inl ⟨rfl, rfl⟩) hd
  | cellDecrement =>
    obtain ⟨hd, rfl⟩ | ⟨hd, rfl⟩ := execCellDecrement_cases h
    · exact .faulted (accessFault_of_le hd) (by simp)
    · exact .wrote (.inr ⟨rfl, rfl⟩) hd
  | loopOpen =>
    obtain ⟨hd, rfl⟩ | ⟨hd, hz, hm, rfl⟩ | ⟨hd, hz, c, hm, rfl⟩ | ⟨hd, hz, rfl⟩ :=
      execLoopOpen_cases h
    · exact .faulted (faultRaised_eq_pointerOutOfRange_iff.mpr (by simp [hd])) (by simp)
    · exact .faulted (faultRaised_eq_unterminatedLoop_iff.mpr
        ⟨rfl, hd, hz, (matchForward_eq_error_iff s.program s.ip).mp hm⟩) (by simp)
    · exact .skipped rfl hd hz hm
    · exact .entered rfl hd hz
  | loopClose =>
    obtain ⟨hd, rfl⟩ | ⟨hd, hz, rfl⟩ | ⟨hd, hz, hl, rfl⟩ | ⟨hd, hz, below, o, hl, rfl⟩ :=
      execLoopClose_cases h
    · exact .faulted (faultRaised_eq_pointerOutOfRange_iff.mpr (by simp [hd])) (by simp)
    · exact .exited rfl hd hz
    · exact .faulted (faultRaised_eq_unmatchedLoopClose_iff.mpr ⟨rfl, hd, hz, hl⟩) (by simp)
    · exact .jumpedBack rfl hd hz hl
  | input =>
    obtain ⟨hq, rfl⟩ | ⟨b, rest, hq, hd, rfl⟩ | ⟨b, rest, hq, hd, rfl⟩ := execInput_cases h
    · exact .faulted (faultRaised_eq_inputUnavailable_iff.mpr ⟨rfl, hq⟩) (by simp)
    · exact .byteLost rfl hq hd
    · exact .byteTaken rfl hq hd
  | output =>
    obtain ⟨hd, rfl⟩ | ⟨hd, rfl⟩ := execOutput_cases h
    · exact .faulted (accessFault_of_le hd) (by simp)
    · exact .byteOut rfl hd
  | nop op =>
    obtain rfl := execNop_cases (op := op) h
    exact .idled rfl

/-- A form whose conditions hold is the one the instruction takes. -/
theorem ExecForm.exec_eq (h : ExecForm i s t) : exec i s = .next t := by
  cases h with
  | faulted hk hi => exact exec_of_faultRaised hk hi
  | byteLost hi hq hd => exact hi ▸ exec_input_of_le hq hd
  | moved hi =>
    obtain ⟨rfl, rfl⟩ | ⟨rfl, hd⟩ := hi
    · exact exec_cursorRight s
    · rw [exec_cursorLeft_of_pos (by omega), ← hd, Nat.add_sub_cancel]
  | wrote hi hd =>
    obtain ⟨rfl, rfl⟩ | ⟨rfl, rfl⟩ := hi
    · exact readCell_writeCell_of_lt cellSucc hd
    · exact readCell_writeCell_of_lt cellPred hd
  | byteTaken hi hq hd => exact hi ▸ exec_input_of_lt hq hd
  | byteOut hi hd => exact hi ▸ exec_output_of_lt hd
  | skipped hi hd hz hm => exact hi ▸ exec_loopOpen_skip hd hz hm
  | entered hi hd hz => exact hi ▸ exec_loopOpen_enter hd hz
  | exited hi hd hz => exact hi ▸ exec_loopClose_exit hd hz
  | jumpedBack hi hd hz hl => exact hi ▸ exec_loopClose_jumpBack hd hz hl
  | idled hi => exact hi ▸ exec_nop _ s

/-! ### The frame of an instruction -/

/-- No instruction writes the Program or `N_t` (R23). -/
theorem ExecForm.launch_eq (h : ExecForm i s t) :
    t.program = s.program ∧ t.tapeSize = s.tapeSize := by
  cases h <;> exact ⟨rfl, rfl⟩

/-- The tape is left alone or written once, at `dp` and within it, by cell arithmetic or
input (20_memory.md R32). -/
theorem ExecForm.tape_cases (h : ExecForm i s t) :
    t.tape = s.tape ∨
      (s.dp < s.tapeSize ∧ (i = .cellIncrement ∨ i = .cellDecrement ∨ i = .input) ∧
        ∃ v, t.tape = Memory.write s.tape s.dp v) := by
  cases h with
  | wrote hi hd =>
    obtain ⟨rfl, rfl⟩ | ⟨rfl, rfl⟩ := hi
    · exact .inr ⟨hd, .inl rfl, _, rfl⟩
    · exact .inr ⟨hd, .inr (.inl rfl), _, rfl⟩
  | byteTaken hi hq hd => exact .inr ⟨hd, .inr (.inr hi), _, rfl⟩
  | _ => exact .inl rfl

/-- A cell that changes is the one at `dp`. -/
theorem ExecForm.cell_changed (h : ExecForm i s t) {a : Nat} (ha : t.cell a ≠ s.cell a) :
    a = s.dp ∧ a < s.tapeSize ∧ (i = .cellIncrement ∨ i = .cellDecrement ∨ i = .input) := by
  obtain ht | ⟨hd, hi, v, ht⟩ := h.tape_cases
  · rw [State.cell, State.cell, ht] at ha
    exact absurd rfl ha
  · rw [State.cell, State.cell, ht] at ha
    have hadp : a = s.dp := by
      by_contra hne
      exact ha (Memory.read_write_other s.tape s.dp v a hne)
    exact ⟨hadp, hadp ▸ hd, hi⟩

theorem ExecForm.dp_changed (h : ExecForm i s t) (hdp : t.dp ≠ s.dp) :
    i = .cursorRight ∨ i = .cursorLeft := by
  cases h with
  | moved hi => exact hi.imp And.left And.left
  | _ => exact absurd rfl hdp

theorem ExecForm.ls_changed (h : ExecForm i s t) (hls : t.ls ≠ s.ls) :
    i = .loopOpen ∨ i = .loopClose := by
  cases h with
  | entered hi => exact .inl hi
  | exited hi => exact .inr hi
  | _ => exact absurd rfl hls

theorem ExecForm.inq_changed (h : ExecForm i s t) (hinq : t.inq ≠ s.inq) : i = .input := by
  cases h with
  | byteLost hi => exact hi
  | byteTaken hi => exact hi
  | _ => exact absurd rfl hinq

/-- Only an output touches `out`, at its end, and only an input `inq`, at its front. -/
theorem ExecForm.streams (h : ExecForm i s t) : s.out <+: t.out ∧ t.inq <:+ s.inq := by
  cases h with
  | byteOut => exact ⟨List.prefix_append _ _, List.suffix_refl _⟩
  | byteLost hi hq => exact ⟨List.prefix_refl _, hq ▸ List.suffix_cons _ _⟩
  | byteTaken hi hq => exact ⟨List.prefix_refl _, hq ▸ List.suffix_cons _ _⟩
  | _ => exact ⟨List.prefix_refl _, List.suffix_refl _⟩

end

/-- The form a step takes is one of the instruction whose symbol is at `ip`. -/
theorem step_form {s t : State} (h : step s = .next t) :
    s.fault = none ∧ ∃ i, ExecForm i s t ∧
      ∀ j : Instr, j.wf = true → (s.prog s.ip = some (encodeByte j) ↔ i = j) := by
  obtain ⟨hf, i, he, hsym⟩ := step_next_exec h
  exact ⟨hf, i, exec_form he, hsym⟩

/-- Settles O33: the frame of the form the step takes. -/
theorem whoWritesWhat : Obligations.WhoWritesWhat := by
  unfold Obligations.WhoWritesWhat
  intro s t h
  obtain ⟨-, i, he, hsym⟩ := step_next_exec h
  have hform := exec_form he
  have hRight : s.prog s.ip = some opCursorRight ↔ i = .cursorRight := hsym .cursorRight rfl
  have hLeft : s.prog s.ip = some opCursorLeft ↔ i = .cursorLeft := hsym .cursorLeft rfl
  have hInc : s.prog s.ip = some opCellIncrement ↔ i = .cellIncrement := hsym .cellIncrement rfl
  have hDec : s.prog s.ip = some opCellDecrement ↔ i = .cellDecrement := hsym .cellDecrement rfl
  have hOpen : s.prog s.ip = some opLoopOpen ↔ i = .loopOpen := hsym .loopOpen rfl
  have hClose : s.prog s.ip = some opLoopClose ↔ i = .loopClose := hsym .loopClose rfl
  have hIn : s.prog s.ip = some opInput ↔ i = .input := hsym .input rfl
  have hOut : s.prog s.ip = some opOutput ↔ i = .output := hsym .output rfl
  rw [hRight, hLeft, hOpen, hClose, hOut, hIn, hInc, hDec]
  exact ⟨hform.dp_changed, hform.ls_changed, fun hout => (exec_out_changed he hout).1,
    hform.inq_changed, fun _ => hform.cell_changed, hform.launch_eq⟩

/-! ### The frame of a run -/

theorem Reaches.launch_eq {s t : State} (h : Reaches s t) :
    t.program = s.program ∧ t.tapeSize = s.tapeSize := by
  refine h.induct (P := fun t => t.program = s.program ∧ t.tapeSize = s.tapeSize) ?_ ⟨rfl, rfl⟩
  intro t u ht hu
  obtain ⟨-, i, hform, -⟩ := step_form hu
  obtain ⟨hprogram, hsize⟩ := hform.launch_eq
  exact ⟨hprogram.trans ht.1, hsize.trans ht.2⟩

/-- Settles O34. -/
theorem runKeepsTheLaunch : Obligations.RunKeepsTheLaunch := by
  unfold Obligations.RunKeepsTheLaunch
  exact fun _ _ => Reaches.launch_eq

/-- Settles O35: what each step appends and takes composes along the run. -/
theorem streamsAreMonotone : Obligations.StreamsAreMonotone := by
  unfold Obligations.StreamsAreMonotone
  intro s t h
  refine h.induct (P := fun t => s.out <+: t.out ∧ t.inq <:+ s.inq) ?_
    ⟨List.prefix_refl _, List.suffix_refl _⟩
  intro t u ht hu
  obtain ⟨-, i, hform, -⟩ := step_form hu
  obtain ⟨hout, hinq⟩ := hform.streams
  exact ⟨ht.1.trans hout, hinq.trans ht.2⟩

end Sys2Proof.Machine
end

section
/-! Proofs about the forward scan (43_loop_control.md R89, R90, R94): the engine of micro-steps
runs it, and it finds the partner that reading the text left to right gives. -/

namespace Sys2Proof.Machine

/-! ### The engine of micro-steps -/

/-- The first symbol of what is left of a Program, and what is left after it. -/
theorem drop_eq_cons {program bs : List Byte} {b : Byte} {sp : Nat}
    (h : program.drop sp = b :: bs) : program[sp]? = some b ∧ program.drop (sp + 1) = bs := by
  refine ⟨?_, ?_⟩
  · rw [← List.head?_drop, h, List.head?_cons]
  · rw [← List.tail_drop, h, List.tail_cons]

/-- From `r` the engine scans `k` symbols, one a micro-step and each at a depth of at least 1,
and the next micro-step ends it with `e`. -/
def EngineEnds (program : List Byte) (r : ScanRegs) (k : Nat) (e : ScanStatus) : Prop :=
  scanRun program (k + 1) r = e ∧
    ∀ n ≤ k, ∃ d, 1 ≤ d ∧ scanRun program n r = .scanning ⟨r.sp + n, d⟩

section
variable {program bs : List Byte} {sp d : Nat}

theorem engineEnds_found (hd : 1 ≤ d) {b : Byte} (hb : program[sp]? = some b)
    (h0 : nestDepth b d = 0) : EngineEnds program ⟨sp, d⟩ 0 (.found sp) := by
  refine ⟨by simp [scanRun, scanMicroStep, hb, h0], fun n hn => ⟨d, hd, ?_⟩⟩
  rw [Nat.le_zero.mp hn]
  rfl

theorem engineEnds_unterminated (hd : 1 ≤ d) (hb : program[sp]? = none) :
    EngineEnds program ⟨sp, d⟩ 0 .unterminated := by
  refine ⟨by simp [scanRun, scanMicroStep, hb], fun n hn => ⟨d, hd, ?_⟩⟩
  rw [Nat.le_zero.mp hn]
  rfl

theorem engineEnds_succ {k : Nat} {e : ScanStatus} (hd : 1 ≤ d) {b : Byte}
    (hb : program[sp]? = some b) (h0 : nestDepth b d ≠ 0)
    (h : EngineEnds program ⟨sp + 1, nestDepth b d⟩ k e) :
    EngineEnds program ⟨sp, d⟩ (k + 1) e := by
  have hmicro : scanMicroStep program ⟨sp, d⟩ = .scanning ⟨sp + 1, nestDepth b d⟩ := by
    simp [scanMicroStep, hb, h0]
  have hrun : ∀ n, scanRun program (n + 1) ⟨sp, d⟩ =
      scanRun program n ⟨sp + 1, nestDepth b d⟩ := fun n => by rw [scanRun, hmicro]
  obtain ⟨hend, hscan⟩ := h
  refine ⟨(hrun _).trans hend, fun n hn => ?_⟩
  cases n with
  | zero => exact ⟨d, hd, rfl⟩
  | succ n =>
    obtain ⟨d', hd', hn'⟩ := hscan n (Nat.le_of_succ_le_succ hn)
    exact ⟨d', hd', by rw [hrun, hn', Nat.add_right_comm, Nat.add_assoc]⟩

/-- The engine follows the scan symbol by symbol, to the position it returns or to the end. -/
theorem engineEnds_of_scan (hbs : program.drop sp = bs) (hd : 1 ≤ d) :
    (∀ c, scan bs sp d = .ok c → EngineEnds program ⟨sp, d⟩ (c - sp) (.found c)) ∧
    (∀ k, scan bs sp d = .error k → EngineEnds program ⟨sp, d⟩ bs.length .unterminated) := by
  induction bs generalizing sp d with
  | nil =>
    have hb : program[sp]? = none := List.getElem?_eq_none_iff.mpr (List.drop_eq_nil_iff.mp hbs)
    exact ⟨fun c h => by simp [scan] at h, fun _ _ => engineEnds_unterminated hd hb⟩
  | cons b bs ih =>
    obtain ⟨hb, hrest⟩ := drop_eq_cons hbs
    by_cases h0 : nestDepth b d = 0
    · simp only [scan, if_pos h0]
      refine ⟨fun c h => ?_, fun k h => by cases h⟩
      cases h
      rw [Nat.sub_self]
      exact engineEnds_found hd hb h0
    · simp only [scan, if_neg h0]
      obtain ⟨hok, herror⟩ := ih hrest (Nat.one_le_iff_ne_zero.mpr h0)
      refine ⟨fun c h => ?_, fun k h => engineEnds_succ hd hb h0 (herror k h)⟩
      have hc : c - sp = c - (sp + 1) + 1 := by
        have := (scan_ok_bounds h).1
        omega
      rw [hc]
      exact engineEnds_succ hd hb h0 (hok c h)

end

/-- Settles O23: the engine is started at what `MatchForward` scans. -/
theorem scanEngineMatchesScan : Obligations.ScanEngineMatchesScan := by
  unfold Obligations.ScanEngineMatchesScan
  intro program o ho
  obtain ⟨hok, herror⟩ := engineEnds_of_scan (program := program) (sp := o + 1) rfl (le_refl 1)
  refine ⟨fun c hc => ?_, fun h => ?_⟩
  · obtain ⟨hend, hscan⟩ := hok c hc
    have hlen : c - (o + 1) + 1 = c - o := by
      have := (matchForward_ok hc).1
      omega
    rw [hlen] at hend
    exact ⟨hend, fun n hn => hscan n (by omega)⟩
  · obtain ⟨hend, hscan⟩ := herror _ h
    have hlen : (program.drop (o + 1)).length + 1 = program.length - o := by
      rw [List.length_drop]
      omega
    rw [hlen] at hend
    exact ⟨hend, fun n hn => hscan n (by omega)⟩

/-! ### The text read left to right -/

section
variable {program : List Byte} {k o c : Nat}

theorem unpairedBefore_succ_open (h : program[k]? = some opLoopOpen) :
    unpairedBefore program (k + 1) = unpairedBefore program k ++ [k] := by
  rw [unpairedBefore_succ h, if_pos rfl]

theorem unpairedBefore_succ_close (h : program[k]? = some opLoopClose) :
    unpairedBefore program (k + 1) = (unpairedBefore program k).dropLast := by
  rw [unpairedBefore_succ h, if_neg (by decide), if_pos rfl]

theorem unpairedBefore_of_le (h : program.length ≤ k) :
    unpairedBefore program k = unpairedBefore program program.length := by
  rw [unpairedBefore, unpairedBefore, List.take_of_length_le h, List.take_length]

/-- Any other symbol, or none, leaves the open loops alone. -/
theorem unpairedBefore_succ_other (ho : program[k]? ≠ some opLoopOpen)
    (hc : program[k]? ≠ some opLoopClose) :
    unpairedBefore program (k + 1) = unpairedBefore program k := by
  cases hb : program[k]? with
  | none =>
    have hk := List.getElem?_eq_none_iff.mp hb
    rw [unpairedBefore_of_le hk, unpairedBefore_of_le (Nat.le_succ_of_le hk)]
  | some b =>
    rw [hb, ne_eq, Option.some.injEq] at ho hc
    rw [unpairedBefore_succ hb, if_neg ho, if_neg hc]

/-- What one more position does to the loops open before it. -/
theorem unpairedBefore_succ_cases (program : List Byte) (k : Nat) :
    (program[k]? = some opLoopOpen ∧
      unpairedBefore program (k + 1) = unpairedBefore program k ++ [k]) ∨
    (program[k]? = some opLoopClose ∧
      unpairedBefore program (k + 1) = (unpairedBefore program k).dropLast) ∨
    unpairedBefore program (k + 1) = unpairedBefore program k := by
  by_cases ho : program[k]? = some opLoopOpen
  · exact .inl ⟨ho, unpairedBefore_succ_open ho⟩
  by_cases hc : program[k]? = some opLoopClose
  · exact .inr (.inl ⟨hc, unpairedBefore_succ_close hc⟩)
  · exact .inr (.inr (unpairedBefore_succ_other ho hc))

/-- The open loops are listed by rising position. -/
theorem unpairedBefore_pairwise (program : List Byte) (k : Nat) :
    (unpairedBefore program k).Pairwise (· < ·) := by
  induction k with
  | zero => exact List.Pairwise.nil
  | succ k ih =>
    obtain ⟨-, hk⟩ | ⟨-, hk⟩ | hk := unpairedBefore_succ_cases program k <;> rw [hk]
    · exact List.pairwise_append.mpr ⟨ih, List.pairwise_singleton _ _, fun p hp q hq =>
        List.mem_singleton.mp hq ▸ unpairedBefore_lt program k p hp⟩
    · exact ih.sublist (List.dropLast_sublist _)
    · exact ih

/-- They are positions of loop-opens. -/
theorem loopOpen_of_mem_unpairedBefore (ho : o ∈ unpairedBefore program k) :
    program[o]? = some opLoopOpen := by
  induction k with
  | zero => cases ho
  | succ k ih =>
    obtain ⟨hk, hu⟩ | ⟨-, hu⟩ | hu := unpairedBefore_succ_cases program k <;> rw [hu] at ho
    · rcases List.mem_append.mp ho with ho | ho
      · exact ih ho
      · exact List.mem_singleton.mp ho ▸ hk
    · exact ih (List.mem_of_mem_dropLast ho)
    · exact ih ho

/-- A loop open at some position has been open ever since it was read. -/
theorem mem_unpairedBefore_of_le {j : Nat} (hj : o < j) (hjk : j ≤ k)
    (ho : o ∈ unpairedBefore program k) : o ∈ unpairedBefore program j := by
  induction k, hjk using Nat.le_induction with
  | base => exact ho
  | succ k hjk ih =>
    refine ih ?_
    obtain ⟨-, hu⟩ | ⟨-, hu⟩ | hu := unpairedBefore_succ_cases program k <;> rw [hu] at ho
    · rcases List.mem_append.mp ho with ho | ho
      · exact ho
      · exact absurd (List.mem_singleton.mp ho) (by omega)
    · exact List.mem_of_mem_dropLast ho
    · exact ho

/-! ### Pairs -/

/-- The loops open at a paired loop-close are the partner and others below it. -/
theorem Paired.exists_concat (h : Paired program o c) :
    ∃ below, unpairedBefore program c = below ++ [o] := List.getLast?_eq_some_iff.mp h.2

theorem Paired.mem (h : Paired program o c) : o ∈ unpairedBefore program c :=
  List.mem_of_getLast? h.2

theorem Paired.lt (h : Paired program o c) : o < c := unpairedBefore_lt program c o h.mem

/-- A loop is no longer open after its loop-close. -/
theorem Paired.not_mem_of_lt (h : Paired program o c) (hk : c < k) :
    o ∉ unpairedBefore program k := by
  intro ho
  have hmem := mem_unpairedBefore_of_le (Nat.lt_succ_of_lt h.lt) hk ho
  obtain ⟨below, hbelow⟩ := h.exists_concat
  have hrising := unpairedBefore_pairwise program c
  rw [hbelow, List.pairwise_append] at hrising
  rw [Nat.succ_eq_add_one, unpairedBefore_succ_close h.1, hbelow, List.dropLast_concat] at hmem
  exact lt_irrefl o (hrising.2.2 o hmem o (List.mem_singleton_self o))

/-- A loop-open has at most one partner. -/
theorem Paired.unique {c' : Nat} (h : Paired program o c) (h' : Paired program o c') : c = c' := by
  rcases Nat.lt_trichotomy c c' with hlt | heq | hgt
  · exact absurd h'.mem (h.not_mem_of_lt hlt)
  · exact heq
  · exact absurd h.mem (h'.not_mem_of_lt hgt)

theorem Paired.not_openEnded (h : Paired program o c) : ¬ OpenEnded program o :=
  h.not_mem_of_lt (List.getElem?_eq_some_iff.mp h.1).1

/-! ### The scan finds the partner -/

/-- A scan that starts with `o` open and as many loops open above it as its counter exceeds 1
by: where it returns, `o` is the innermost open loop, and where it does not, `o` is never
closed. -/
theorem unpairedBefore_of_scan {bs : List Byte} {sp : Nat} {below inner : List Nat}
    (hbs : program.drop sp = bs) (hopen : unpairedBefore program sp = below ++ o :: inner) :
    (∀ c, scan bs sp (inner.length + 1) = .ok c → unpairedBefore program c = below ++ [o]) ∧
    (∀ k, scan bs sp (inner.length + 1) = .error k → OpenEnded program o) := by
  induction bs generalizing sp inner with
  | nil =>
    refine ⟨fun c h => by simp [scan] at h, fun _ _ => ?_⟩
    rw [OpenEnded, ← unpairedBefore_of_le (List.drop_eq_nil_iff.mp hbs), hopen]
    simp
  | cons b bs ih =>
    obtain ⟨hb, hrest⟩ := drop_eq_cons hbs
    by_cases ho : b = opLoopOpen
    · subst ho
      have hnext : unpairedBefore program (sp + 1) = below ++ o :: (inner ++ [sp]) := by
        rw [unpairedBefore_succ_open hb, hopen, List.append_assoc, List.cons_append]
      have ih := ih hrest hnext
      rw [List.length_append, List.length_singleton] at ih
      simpa only [scan, nestDepth_open, Nat.succ_ne_zero, if_false] using ih
    by_cases hc : b = opLoopClose
    · subst hc
      rcases List.eq_nil_or_concat' inner with rfl | ⟨inner, p, rfl⟩
      · simpa [scan] using hopen
      · have hnext : unpairedBefore program (sp + 1) = below ++ o :: inner := by
          rw [unpairedBefore_succ_close hb, hopen, ← List.cons_append, ← List.append_assoc,
            List.dropLast_concat]
        simpa [scan] using ih hrest hnext
    · have hnext : unpairedBefore program (sp + 1) = below ++ o :: inner := by
        rw [unpairedBefore_succ_other (by simpa [hb] using ho) (by simpa [hb] using hc), hopen]
      simpa only [scan, nestDepth_other ho hc, Nat.succ_ne_zero, if_false] using ih hrest hnext

/-- What `MatchForward` answers for a loop-open, in terms of the text. -/
theorem unpairedBefore_of_matchForward (ho : program[o]? = some opLoopOpen) :
    (∀ c, matchForward program o = .ok c →
      unpairedBefore program c = unpairedBefore program o ++ [o]) ∧
    (∀ k, matchForward program o = .error k → OpenEnded program o) :=
  unpairedBefore_of_scan (inner := []) rfl (unpairedBefore_succ_open ho)

theorem paired_of_matchForward (ho : program[o]? = some opLoopOpen)
    (hm : matchForward program o = .ok c) : Paired program o c := by
  refine ⟨(matchForward_ok hm).2.2, ?_⟩
  rw [(unpairedBefore_of_matchForward ho).1 c hm, List.getLast?_concat]

theorem openEnded_of_matchForward {e : FaultKind} (ho : program[o]? = some opLoopOpen)
    (hm : matchForward program o = .error e) : OpenEnded program o :=
  (unpairedBefore_of_matchForward ho).2 e hm

theorem paired_iff : Paired program o c ↔
    program[o]? = some opLoopOpen ∧ matchForward program o = .ok c := by
  refine ⟨fun h => ?_, fun ⟨ho, hm⟩ => paired_of_matchForward ho hm⟩
  have ho := loopOpen_of_mem_unpairedBefore h.mem
  refine ⟨ho, ?_⟩
  cases hm : matchForward program o with
  | ok c' => rw [h.unique (paired_of_matchForward ho hm)]
  | error e => exact absurd (openEnded_of_matchForward ho hm) h.not_openEnded

theorem openEnded_iff : OpenEnded program o ↔
    program[o]? = some opLoopOpen ∧ matchForward program o = .error .unterminatedLoop := by
  refine ⟨fun h => ?_, fun ⟨ho, hm⟩ => openEnded_of_matchForward ho hm⟩
  have ho := loopOpen_of_mem_unpairedBefore h
  refine ⟨ho, ?_⟩
  cases hm : matchForward program o with
  | ok c => exact absurd h (paired_of_matchForward ho hm).not_openEnded
  | error e => rw [matchForward_error hm]

/-- The loops open at a loop-close are those open at its partner, and the partner. -/
theorem Paired.unpairedBefore_eq (h : Paired program o c) :
    unpairedBefore program c = unpairedBefore program (o + 1) := by
  obtain ⟨ho, hm⟩ := paired_iff.mp h
  rw [(unpairedBefore_of_matchForward ho).1 c hm, unpairedBefore_succ_open ho]

/-- After a loop-close the loops open are those before its partner. -/
theorem Paired.unpairedBefore_succ (h : Paired program o c) :
    unpairedBefore program (c + 1) = unpairedBefore program o := by
  obtain ⟨ho, hm⟩ := paired_iff.mp h
  rw [unpairedBefore_succ_close h.1, (unpairedBefore_of_matchForward ho).1 c hm,
    List.dropLast_concat]

end

/-- Settles O24: a loop-open has one partner or none, and the scan answers the same. -/
theorem scanFindsTextualPartner : Obligations.ScanFindsTextualPartner := by
  unfold Obligations.ScanFindsTextualPartner
  exact fun _ _ => ⟨fun _ => paired_iff, openEnded_iff⟩

end Sys2Proof.Machine
end

section
/-! Proofs about the LoopStack and the text (43_loop_control.md section 4): a step moves `ip`
from pair to pair, so the stack holds the loops the text has open at `ip`. -/

namespace Sys2Proof.Machine

/-! ### Where a step goes -/

/-- What a step from `s` to `t` does to `ip` and the LoopStack. -/
inductive ControlMove (s t : State) : Prop where
  /-- A fault leaves both alone. -/
  | stayed (hip : t.ip = s.ip) (hls : t.ls = s.ls) (hf : t.fault ≠ none)
  /-- A loop-open skips to its partner. -/
  | skipped {c : Nat} (hpair : Paired s.program s.ip c) (hip : t.ip = c + 1) (hls : t.ls = s.ls)
  /-- A loop-open enters. -/
  | entered (ho : s.program[s.ip]? = some opLoopOpen) (hip : t.ip = s.ip + 1)
      (hls : t.ls = s.ls ++ [s.ip])
  /-- A loop-close exits. -/
  | exited (hc : s.program[s.ip]? = some opLoopClose) (hip : t.ip = s.ip + 1)
      (hls : t.ls = s.ls.dropLast)
  /-- A loop-close jumps back to the top of the stack. -/
  | jumpedBack {below : List Nat} {p : Nat} (hc : s.program[s.ip]? = some opLoopClose)
      (htop : s.ls = below ++ [p]) (hip : t.ip = p + 1) (hls : t.ls = s.ls)
  /-- Every other symbol advances. -/
  | advanced (ho : s.program[s.ip]? ≠ some opLoopOpen) (hc : s.program[s.ip]? ≠ some opLoopClose)
      (hip : t.ip = s.ip + 1) (hls : t.ls = s.ls)

section
variable {s t : State}

theorem step_program (h : step s = .next t) : t.program = s.program :=
  (Reaches.single h).launch_eq.1

theorem step_controlMove (h : step s = .next t) : ControlMove s t := by
  obtain ⟨hf, i, hform, hsym⟩ := step_form h
  have hopen : s.program[s.ip]? = some opLoopOpen ↔ i = .loopOpen := hsym .loopOpen rfl
  have hclose : s.program[s.ip]? = some opLoopClose ↔ i = .loopClose := hsym .loopClose rfl
  cases hform with
  | faulted => exact .stayed rfl rfl (by simp)
  | byteLost => exact .stayed rfl rfl (by simp)
  | moved hi =>
    exact .advanced (fun h => by simp [hopen.mp h] at hi) (fun h => by simp [hclose.mp h] at hi)
      rfl rfl
  | wrote hi =>
    exact .advanced (fun h => by simp [hopen.mp h] at hi) (fun h => by simp [hclose.mp h] at hi)
      rfl rfl
  | byteTaken hi => exact .advanced (by simp [hopen, hi]) (by simp [hclose, hi]) rfl rfl
  | byteOut hi => exact .advanced (by simp [hopen, hi]) (by simp [hclose, hi]) rfl rfl
  | skipped hi _ _ hm => exact .skipped (paired_of_matchForward (hopen.mpr hi) hm) rfl rfl
  | entered hi => exact .entered (hopen.mpr hi) rfl rfl
  | exited hi => exact .exited (hclose.mpr hi) rfl rfl
  | jumpedBack hi _ _ hl => exact .jumpedBack (hclose.mpr hi) hl rfl rfl
  | idled hi => exact .advanced (by simp [hopen, hi]) (by simp [hclose, hi]) rfl rfl

end

/-! ### The stack and the text keep in step -/

/-- Above `below` the LoopStack holds the loops that the text has open at `ip` beside
`outer`. -/
def StackMatchesAbove (below outer : List Nat) (s : State) : Prop :=
  ∃ inner, s.ls = below ++ inner ∧ unpairedBefore s.program s.ip = outer ++ inner

/-- `StackMatchesText` is the case of nothing below. -/
theorem stackMatchesText_iff {s : State} : StackMatchesText s ↔ StackMatchesAbove [] [] s := by
  simp [StackMatchesText, StackMatchesAbove, eq_comm]

/-- A loop-close at `ip` closes a loop above `below`, unless nothing is below at all. -/
def ClosesAbove (below outer : List Nat) (s : State) : Prop :=
  s.program[s.ip]? = some opLoopClose → unpairedBefore s.program s.ip = outer →
    below = [] ∧ outer = []

theorem closesAbove_nil (s : State) : ClosesAbove [] [] s := fun _ _ => ⟨rfl, rfl⟩

section
variable {s t : State} {below outer : List Nat} {o : Nat}

/-- The top of the stack at a loop-close is the partner the text gives it. -/
theorem StackMatchesAbove.paired_top (h : StackMatchesAbove below outer s)
    (hclose : ClosesAbove below outer s) (hc : s.program[s.ip]? = some opLoopClose)
    {rest : List Nat} {p : Nat} (htop : s.ls = rest ++ [p]) : Paired s.program p s.ip := by
  obtain ⟨inner, hls, htext⟩ := h
  rcases List.eq_nil_or_concat' inner with rfl | ⟨inner, q, rfl⟩
  · rw [List.append_nil] at hls htext
    rw [(hclose hc htext).1, htop] at hls
    simp at hls
  · rw [htop, ← List.append_assoc] at hls
    obtain rfl : p = q := by simpa using List.append_inj_right' hls rfl
    exact ⟨hc, by rw [htext, ← List.append_assoc, List.getLast?_concat]⟩

/-- Every step keeps the agreement of stack and text. -/
theorem StackMatchesAbove.after_step (h : StackMatchesAbove below outer s)
    (hclose : ClosesAbove below outer s) (hst : step s = .next t) :
    StackMatchesAbove below outer t := by
  have hpaired := fun {rest p} => h.paired_top hclose (rest := rest) (p := p)
  obtain ⟨inner, hls, htext⟩ := h
  unfold StackMatchesAbove
  rw [step_program hst]
  cases step_controlMove hst with
  | stayed hip hls' => exact ⟨inner, hls'.trans hls, hip ▸ htext⟩
  | skipped hpair hip hls' =>
    exact ⟨inner, hls'.trans hls, by rw [hip, hpair.unpairedBefore_succ, htext]⟩
  | entered ho hip hls' =>
    refine ⟨inner ++ [s.ip], ?_, ?_⟩
    · rw [hls', hls, List.append_assoc]
    · rw [hip, unpairedBefore_succ_open ho, htext, List.append_assoc]
  | exited hc hip hls' =>
    rw [hip, unpairedBefore_succ_close hc, hls', htext, hls]
    by_cases hinner : inner = []
    · subst hinner
      rw [List.append_nil] at htext
      obtain ⟨rfl, rfl⟩ := hclose hc htext
      exact ⟨[], rfl, rfl⟩
    · exact ⟨inner.dropLast, List.dropLast_append_of_ne_nil hinner,
        List.dropLast_append_of_ne_nil hinner⟩
  | jumpedBack hc htop hip hls' =>
    exact ⟨inner, hls'.trans hls, by rw [hip, ← (hpaired hc htop).unpairedBefore_eq, htext]⟩
  | advanced ho hc hip hls' =>
    exact ⟨inner, hls'.trans hls, by rw [hip, unpairedBefore_succ_other ho hc, htext]⟩

/-- A loop open at `ip` whose loop-close is not there stays open, and `ip` stays within its
body, behind the first symbol. -/
theorem StackMatchesAbove.open_after_step (h : StackMatchesAbove below outer s)
    (hclose : ClosesAbove below outer s) (hst : step s = .next t)
    (ho : o ∈ unpairedBefore s.program s.ip) (hno : ¬ Paired s.program o s.ip) :
    o ∈ unpairedBefore t.program t.ip ∧ (t.fault = none → o + 1 < t.ip) := by
  have hlt := unpairedBefore_lt s.program s.ip o ho
  rw [step_program hst]
  cases step_controlMove hst with
  | stayed hip _ hf => exact ⟨hip ▸ ho, fun hnone => absurd hnone hf⟩
  | skipped hpair hip =>
    have := hpair.lt
    rw [hip, hpair.unpairedBefore_succ]
    exact ⟨ho, fun _ => by omega⟩
  | entered hopen hip =>
    rw [hip, unpairedBefore_succ_open hopen]
    exact ⟨List.mem_append_left _ ho, fun _ => by omega⟩
  | exited hc hip =>
    rw [hip, unpairedBefore_succ_close hc]
    refine ⟨List.mem_dropLast_of_mem_of_ne_getLast? ho ?_, fun _ => by omega⟩
    exact fun htop => hno ⟨hc, htop.symm⟩
  | jumpedBack hc htop hip =>
    have hpair := h.paired_top hclose hc htop
    have hne : o ≠ _ := fun heq => hno (heq ▸ hpair)
    rw [hpair.unpairedBefore_eq] at ho
    have := unpairedBefore_lt _ _ o ho
    rw [hip]
    exact ⟨ho, fun _ => by omega⟩
  | advanced hopen hc hip =>
    rw [hip, unpairedBefore_succ_other hopen hc]
    exact ⟨ho, fun _ => by omega⟩

end

theorem StackMatchesText.ls_eq {s : State} (h : StackMatchesText s) :
    s.ls = unpairedBefore s.program s.ip := h

/-- Settles O49. -/
theorem stackMatchesTextAtReset : Obligations.StackMatchesTextAtReset := by
  unfold Obligations.StackMatchesTextAtReset
  exact fun l => (unpairedBefore_zero l.program).symm

theorem StackMatchesText.after_step {s t : State} (h : StackMatchesText s)
    (hst : step s = .next t) : StackMatchesText t :=
  stackMatchesText_iff.mpr ((stackMatchesText_iff.mp h).after_step (closesAbove_nil s) hst)

/-- Settles O50: the case of `StackMatchesAbove.after_step` with nothing below. -/
theorem stepKeepsStackMatchingText : Obligations.StepKeepsStackMatchingText := by
  unfold Obligations.StepKeepsStackMatchingText
  exact fun _ _ => StackMatchesText.after_step

theorem StackMatchesText.reaches {s t : State} (h : StackMatchesText s) (hst : Reaches s t) :
    StackMatchesText t :=
  hst.induct (fun _ _ => StackMatchesText.after_step) h

theorem StackMatchesText.open_after_step {s t : State} {o : Nat} (h : StackMatchesText s)
    (hst : step s = .next t) (ho : o ∈ s.ls) (hno : OpenEnded s.program o) :
    o ∈ t.ls ∧ (t.fault = none → o + 1 < t.ip) := by
  rw [h.ls_eq] at ho
  rw [(h.after_step hst).ls_eq]
  exact (stackMatchesText_iff.mp h).open_after_step (closesAbove_nil s) hst ho
    fun hpair => hpair.not_openEnded hno

theorem StackMatchesText.mem_of_openEnded {s t : State} {o : Nat} (hs : StackMatchesText s)
    (hopen : OpenEnded s.program o) (ho : o ∈ s.ls) (hst : Reaches s t) : o ∈ t.ls := by
  induction hst with
  | refl => exact ho
  | tail hsu hu ih =>
    exact ((hs.reaches hsu).open_after_step hu ih (hsu.launch_eq.1.symm ▸ hopen)).1

/-- Settles O53: an open-ended loop-open has no loop-close to pop it or to jump back. -/
theorem openEndedEntryStays : Obligations.OpenEndedEntryStays := by
  unfold Obligations.OpenEndedEntryStays
  intro s t o hs hopen ho hst
  have ht := hs.reaches hst
  have hmem := hs.mem_of_openEnded hopen ho hst
  have hprogram := hst.launch_eq.1
  refine ⟨hmem, ?_, fun u hu => (ht.open_after_step hu hmem (hprogram ▸ hopen)).2⟩
  rw [ht.ls_eq] at hmem
  exact unpairedBefore_lt _ _ o hmem

/-! ### Loop-closes and balanced Programs -/

section
variable {s : State}

/-- A state at a loop-close executes it. -/
theorem step_at_loopClose (hf : s.fault = none) (hc : s.program[s.ip]? = some opLoopClose) :
    step s = exec .loopClose s :=
  (step_of_prog hf hc).trans (congrArg (exec · s) (decodeByte_encodeByte (i := .loopClose) rfl))

/-- Settles O51: the partner is the last of the loops open at `ip`. -/
theorem pairedCloseUsesItsPartner : Obligations.PairedCloseUsesItsPartner := by
  unfold Obligations.PairedCloseUsesItsPartner
  intro s o hs hf hd hpair
  obtain ⟨below, hbelow⟩ := hpair.exists_concat
  have hls : s.ls = below ++ [o] := hs.ls_eq.trans hbelow
  rw [step_at_loopClose hf hpair.1]
  refine ⟨below, hls, fun hz => exec_loopClose_jumpBack hd hz hls, fun hz => ?_⟩
  rw [exec_loopClose_exit hd hz, hls, List.dropLast_concat]
  rfl

/-- Settles O52: no loop is open at `ip`. -/
theorem strayCloseFaultsOrDoesNothing : Obligations.StrayCloseFaultsOrDoesNothing := by
  unfold Obligations.StrayCloseFaultsOrDoesNothing
  intro s hs hf hd hstray
  have hls : s.ls = [] := hs.ls_eq.trans hstray.2
  rw [step_at_loopClose hf hstray.1]
  refine ⟨hls, fun hz => exec_loopClose_unmatched hd hz hls, fun hz => ?_⟩
  rw [exec_loopClose_exit hd hz, setLs_dropLast_of_nil hls]
  rfl

end

/-- A loop fault is raised at a loop symbol the text leaves alone. -/
theorem StackMatchesText.no_loop_fault_after_step {s t : State} (h : StackMatchesText s)
    (hbal : Balanced s.program) (hst : step s = .next t) :
    t.fault ≠ some .unmatchedLoopClose ∧ t.fault ≠ some .unterminatedLoop := by
  obtain ⟨hstray, hopen⟩ := hbal
  obtain ⟨hunmatched, hunterminated⟩ := loopFaultCauses s t hst
  refine ⟨fun hf => ?_, fun hf => ?_⟩
  · obtain ⟨hc, -, -, hls⟩ := hunmatched.mp hf
    exact hstray s.ip ⟨hc, h.ls_eq.symm.trans hls⟩
  · obtain ⟨ho, -, -, hm⟩ := hunterminated.mp hf
    exact hopen s.ip (openEnded_iff.mpr ⟨ho, (matchForward_eq_error_iff _ _).mpr hm⟩)

/-- Settles O54: a Halted state stands where the text has read everything. -/
theorem balancedRunsHaveNoLoopFaults : Obligations.BalancedRunsHaveNoLoopFaults := by
  unfold Obligations.BalancedRunsHaveNoLoopFaults
  intro l s hbal hs
  have hmatch {t} (ht : Reaches (State.resetWith l) t) : StackMatchesText t :=
    (stackMatchesTextAtReset l).reaches ht
  have hprogram {t} (ht : Reaches (State.resetWith l) t) : t.program = l.program :=
    ht.launch_eq.1
  have hfault : s.fault ≠ some .unmatchedLoopClose ∧ s.fault ≠ some .unterminatedLoop := by
    cases hs with
    | refl => simp
    | tail ht hu => exact (hmatch ht).no_loop_fault_after_step (hprogram ht ▸ hbal) hu
  refine ⟨hfault.1, hfault.2, fun hhalt => ?_⟩
  have hend := ((runState_halted_iff s).mp hhalt).2
  rw [(hmatch hs).ls_eq, unpairedBefore_of_le hend, hprogram hs]
  exact List.eq_nil_iff_forall_not_mem.mpr hbal.2

end Sys2Proof.Machine
end

section
/-! Proofs about the invariants (10_state.md section 13): each part of `Inv` is kept by the part
of a step it speaks of, and the bounds of every run follow. -/

namespace Sys2Proof.Machine

/-! ### Reset -/

theorem inv_resetWith {l : Launch} (hl : l.wf = true) : Inv (State.resetWith l) where
  tapeExists := of_decide_eq_true hl
  tapeCanonical := reset_tape_wf l
  tapeInRange := by simp
  ipInProgram := Nat.zero_le _
  dpBound := Nat.zero_le _
  lsRising := List.Pairwise.nil
  lsBelowIp := by simp
  lsLoopOpens := by simp
  neverCodeTwo := by simp

/-- Settles O46: `State.reset` is one of the legal launches. -/
theorem invariantHoldsAtReset : Obligations.InvariantHoldsAtReset := by
  unfold Obligations.InvariantHoldsAtReset
  exact ⟨fun _ => inv_resetWith, inv_resetWith rfl⟩

/-! ### One step -/

section
variable {i : Instr} {s t : State}

/-- The tape's part of the invariant: a write is within the tape and canonical. -/
theorem ExecForm.tape_inv (h : ExecForm i s t) (hwf : Memory.wf s.tape)
    (hrange : ∀ c ∈ s.tape, c.1 < s.tapeSize) :
    Memory.wf t.tape ∧ ∀ c ∈ t.tape, c.1 < s.tapeSize := by
  obtain ht | ⟨hd, -, v, ht⟩ := h.tape_cases <;> rw [ht]
  · exact ⟨hwf, hrange⟩
  · refine ⟨Memory.wf_write _ _ _ hwf, fun c hc => ?_⟩
    obtain rfl | hc := Memory.mem_write _ _ _ _ hc
    · exact hd
    · exact hrange c hc

/-- The bound on `dp`: a move costs a position, and the one way back, a back-jump, is taken
within the tape only. -/
theorem ExecForm.dp_le (h : ExecForm i s t) (hs : s.dp ≤ s.tapeSize - 1 + s.ip) :
    t.dp ≤ s.tapeSize - 1 + t.ip := by
  cases h with
  | moved hi =>
    rw [advance_dp, advance_ip, State.setDp_dp, State.setDp_ip]
    omega
  | skipped _ _ _ hm =>
    have := (matchForward_ok hm).1
    rw [advance_dp, advance_ip, State.setIp_dp, State.setIp_ip]
    omega
  | jumpedBack _ hd =>
    rw [advance_dp, advance_ip, State.setIp_dp, State.setIp_ip]
    omega
  | faulted => exact hs
  | byteLost => exact hs
  | _ => exact Nat.le_succ_of_le hs

/-- `ip` within the Program, and a LoopStack of loop-opens at rising positions below it. -/
def ControlInv (s : State) : Prop :=
  s.ip ≤ s.program.length ∧ s.ls.Pairwise (· < ·) ∧ (∀ p ∈ s.ls, p < s.ip) ∧
    ∀ p ∈ s.ls, s.program[p]? = some opLoopOpen

/-- The control's part of the invariant. -/
theorem ControlInv.after_step (h : ControlInv s) (hst : step s = .next t) : ControlInv t := by
  obtain ⟨-, b, hb, -⟩ := step_next hst
  have hlt : s.ip < s.program.length := (List.getElem?_eq_some_iff.mp hb).1
  obtain ⟨hip, hrising, hbelow, hopens⟩ := h
  unfold ControlInv
  rw [step_program hst]
  cases step_controlMove hst with
  | stayed hip' hls =>
    rw [hip', hls]
    exact ⟨hip, hrising, hbelow, hopens⟩
  | skipped hpair hip' hls =>
    have hc := (List.getElem?_eq_some_iff.mp hpair.1).1
    have hoc := hpair.lt
    rw [hip', hls]
    exact ⟨hc, hrising, fun p hp => by have := hbelow p hp; omega, hopens⟩
  | entered ho hip' hls =>
    rw [hip', hls]
    refine ⟨hlt, List.pairwise_append.mpr ⟨hrising, List.pairwise_singleton _ _, ?_⟩, ?_, ?_⟩
    · exact fun p hp q hq => List.mem_singleton.mp hq ▸ hbelow p hp
    · exact List.forall_mem_append.mpr ⟨fun p hp => Nat.lt_succ_of_lt (hbelow p hp),
        List.forall_mem_singleton.mpr (Nat.lt_succ_self _)⟩
    · exact List.forall_mem_append.mpr ⟨hopens, List.forall_mem_singleton.mpr ho⟩
  | exited hc hip' hls =>
    rw [hip', hls]
    exact ⟨hlt, hrising.sublist (List.dropLast_sublist _),
      fun p hp => Nat.lt_succ_of_lt (hbelow p (List.mem_of_mem_dropLast hp)),
      fun p hp => hopens p (List.mem_of_mem_dropLast hp)⟩
  | @jumpedBack below q hc htop hip' hls =>
    have hq := hbelow q (by simp [htop])
    rw [hip', hls]
    refine ⟨by omega, hrising, ?_, hopens⟩
    rw [htop] at hrising ⊢
    exact List.forall_mem_append.mpr ⟨fun p hp => Nat.lt_succ_of_lt
      ((List.pairwise_append.mp hrising).2.2 p hp q (List.mem_singleton_self q)),
      List.forall_mem_singleton.mpr (Nat.lt_succ_self _)⟩
  | advanced _ _ hip' hls =>
    rw [hip', hls]
    exact ⟨hlt, hrising, fun p hp => Nat.lt_succ_of_lt (hbelow p hp), hopens⟩

theorem Inv.after_step (h : Inv s) (hst : step s = .next t) : Inv t := by
  obtain ⟨hf, i, he, -⟩ := step_next_exec hst
  have hform := exec_form he
  obtain ⟨-, hsize⟩ := hform.launch_eq
  obtain ⟨hwf, hrange⟩ := hform.tape_inv h.tapeCanonical h.tapeInRange
  obtain ⟨hip, hrising, hbelow, hopens⟩ := ControlInv.after_step
    ⟨h.ipInProgram, h.lsRising, h.lsBelowIp, h.lsLoopOpens⟩ hst
  exact {
    tapeExists := hsize ▸ h.tapeExists
    tapeCanonical := hwf
    tapeInRange := hsize ▸ hrange
    ipInProgram := hip
    dpBound := hsize ▸ hform.dp_le h.dpBound
    lsRising := hrising
    lsBelowIp := hbelow
    lsLoopOpens := hopens
    neverCodeTwo := exec_fault he hf ▸ faultRaised_ne_instructionPointerOutOfRange }

end

/-- Settles O47, part by part. -/
theorem stepKeepsInvariant : Obligations.StepKeepsInvariant := by
  unfold Obligations.StepKeepsInvariant
  exact fun _ _ => Inv.after_step

/-! ### Every state of a legal run -/

/-- No more loops are open than loop-opens were read. -/
theorem length_unpairedFrom_le (bs : List Byte) (p : Nat) (st : List Nat) :
    (unpairedFrom bs p st).length ≤ st.length + bs.count opLoopOpen := by
  induction bs generalizing p st with
  | nil => simp
  | cons b bs ih =>
    rw [unpairedFrom_cons]
    refine (ih _ _).trans ?_
    by_cases ho : b = opLoopOpen
    · subst ho
      simp only [if_true, List.length_append, List.length_singleton, List.count_cons_self]
      omega
    · rw [if_neg ho, List.count_cons_of_ne ho]
      refine Nat.add_le_add_right ?_ _
      split
      · simp
      · exact le_refl _

theorem length_unpairedBefore_le (program : List Byte) (k : Nat) :
    (unpairedBefore program k).length ≤ program.count opLoopOpen :=
  calc (unpairedBefore program k).length
    _ ≤ 0 + (program.take k).count opLoopOpen := length_unpairedFrom_le _ 0 []
    _ ≤ program.count opLoopOpen := by
      rw [Nat.zero_add]
      exact (List.take_sublist k program).count_le _

/-- Settles O48: the invariant holds along the run, and the LoopStack matches the text. -/
theorem reachableStatesMeetTheBounds : Obligations.ReachableStatesMeetTheBounds := by
  unfold Obligations.ReachableStatesMeetTheBounds
  intro l s hl hs
  have hinv : Inv s := hs.induct (fun _ _ => Inv.after_step) (inv_resetWith hl)
  have hmatch := ((stackMatchesTextAtReset l).reaches hs).ls_eq
  obtain ⟨hprogram, hsize⟩ := hs.launch_eq
  rw [State.resetWith_program] at hprogram
  rw [State.resetWith_tapeSize] at hsize
  have hip := hinv.ipInProgram
  have hdp := hinv.dpBound
  have hopens := hinv.lsLoopOpens
  rw [hprogram] at hip hopens hmatch
  rw [hsize] at hdp
  exact ⟨hip, hinv.lsRising, fun p hp => ⟨hinv.lsBelowIp p hp, hopens p hp⟩,
    hmatch ▸ length_unpairedBefore_le l.program s.ip, by omega, hinv.neverCodeTwo⟩

end Sys2Proof.Machine
end

section
/-! Proofs about runs (40_execution_cycle.md section 6) and about what the host reads of them
(44_io.md section 3, 70_reset_and_hazards.md section 3). -/

namespace Sys2Proof.Machine

/-! ### What the host reads -/

section
variable {s t u : State}

/-- A result is the output of a Halted state (R138). -/
theorem result?_eq_some_iff {o : List Byte} :
    s.result? = some o ↔ s.runState = .halted ∧ o = s.out := by
  unfold State.result?
  cases s.runState <;> simp [eq_comm]

/-- A failure report is that of a Faulted state (R117, R137). -/
theorem failure?_eq_some_iff {r : FailureReport} :
    s.failure? = some r ↔
      s.fault = some r.kind ∧ r.ip = s.ip ∧ r.dp = s.dp ∧ r.out = s.out := by
  obtain ⟨kind, ip, dp, out⟩ := r
  rw [← runState_faulted_iff]
  unfold State.failure?
  cases s.runState <;> simp [eq_comm]

/-- Every Faulted state has a report. -/
theorem exists_failure?_iff : (∃ r, s.failure? = some r) ↔ s.fault ≠ none := by
  simp only [failure?_eq_some_iff, Option.ne_none_iff_exists']
  exact ⟨fun ⟨r, hf, _⟩ => ⟨r.kind, hf⟩, fun ⟨k, hf⟩ => ⟨⟨k, s.ip, s.dp, s.out⟩, hf, rfl, rfl, rfl⟩⟩

/-! ### A run is one line of states -/

/-- A run is over, or goes on with its first step. -/
theorem Reaches.eq_or_step (h : Reaches s t) : t = s ∨ ∃ u, step s = .next u ∧ Reaches u t := by
  induction h with
  | refl => exact .inl rfl
  | tail _ hu ih =>
    obtain rfl | ⟨v, hv, hvt⟩ := ih
    · exact .inr ⟨_, hu, .refl _⟩
    · exact .inr ⟨v, hv, hvt.tail hu⟩

/-- Of two later states one is later than the other, since a step has one next state. -/
theorem Reaches.linear (ht : Reaches s t) (hu : Reaches s u) : Reaches t u ∨ Reaches u t := by
  induction hu with
  | refl => exact .inr ht
  | tail _ hv ih =>
    obtain htu | hut := ih
    · exact .inl (htu.tail hv)
    · obtain rfl | ⟨w, hw, hwt⟩ := hut.eq_or_step
      · exact .inl (.single hv)
      · cases hv.symm.trans hw
        exact .inr hwt

/-- A run ends at most once. -/
theorem Reaches.end_unique (ht : Reaches s t) (hu : Reaches s u) (ht' : t.runState ≠ .running)
    (hu' : u.runState ≠ .running) : t = u := by
  obtain htu | hut := ht.linear hu
  · exact (htu.eq_of_not_running ht').symm
  · exact hut.eq_of_not_running hu'

end

/-! ### No input is read ahead -/

/-- `s` with more bytes behind its input. -/
def appendInput (extra : List Byte) (s : State) : State := s.setInq (s.inq ++ extra)

section
variable {i : Instr} {s t : State} {extra : List Byte}

/-- The head of the queue is the same with more bytes at its end. -/
theorem appendInput_inq_cons {b : Byte} {rest : List Byte} (h : s.inq = b :: rest) :
    (appendInput extra s).inq = b :: (rest ++ extra) := congrArg (· ++ extra) h

/-- Only an input's fault depends on the queue. -/
theorem faultRaised_appendInput (hi : i ≠ .input) :
    faultRaised i (appendInput extra s) = faultRaised i s := by
  cases i with
  | input => exact absurd rfl hi
  | _ => rfl

/-- The faults of an input: no byte, or no cell for it. -/
theorem faultRaised_input {k : FaultKind} (hk : faultRaised .input s = some k) :
    k = .inputUnavailable ∨ k = .pointerOutOfRange := by
  by_cases hq : s.inq = []
  · rw [faultRaised, if_pos hq] at hk
    exact .inl (Option.some.inj hk).symm
  · rw [faultRaised, if_neg hq] at hk
    exact .inr (accessFault_eq_some_iff.mp hk).2

/-- An instruction that has not asked for a missing byte takes the same form with more bytes
behind the input. -/
theorem ExecForm.with_more_input (h : ExecForm i s t) (hf : t.fault ≠ some .inputUnavailable) :
    ExecForm i (appendInput extra s) (appendInput extra t) := by
  cases h with
  | @faulted k hk hi =>
    have hne : i ≠ .input := by
      rintro rfl
      obtain rfl | rfl := faultRaised_input hk
      · exact hf rfl
      · exact hi ⟨rfl, rfl⟩
    exact .faulted ((faultRaised_appendInput hne).trans hk) hi
  | byteLost hi hq hd => exact .byteLost hi (appendInput_inq_cons hq) hd
  | moved hi => exact .moved (s := appendInput extra s) hi
  | wrote hi hd => exact .wrote (s := appendInput extra s) hi hd
  | byteTaken hi hq hd => exact .byteTaken hi (appendInput_inq_cons hq) hd
  | byteOut hi hd => exact .byteOut (s := appendInput extra s) hi hd
  | skipped hi hd hz hm => exact .skipped (s := appendInput extra s) hi hd hz hm
  | entered hi hd hz => exact .entered (s := appendInput extra s) hi hd hz
  | exited hi hd hz => exact .exited (s := appendInput extra s) hi hd hz
  | jumpedBack hi hd hz hl => exact .jumpedBack (s := appendInput extra s) hi hd hz hl
  | idled hi => exact .idled (s := appendInput extra s) hi

theorem step_with_more_input (h : step s = .next t) (hf : t.fault ≠ some .inputUnavailable) :
    step (appendInput extra s) = .next (appendInput extra t) := by
  obtain ⟨hnone, b, hb, he⟩ := step_next h
  rw [step_of_prog (s := appendInput extra s) hnone hb]
  exact ((exec_form he).with_more_input hf).exec_eq

theorem Reaches.with_more_input (h : Reaches s t) (hf : t.fault ≠ some .inputUnavailable) :
    Reaches (appendInput extra s) (appendInput extra t) := by
  induction h with
  | refl => exact .refl _
  | tail _ hu ih =>
    have hnone := (step_next hu).1
    exact (ih (by simp [hnone])).tail (step_with_more_input hu hf)

end

/-- Settles O36. -/
theorem runIsLinearAndReadsNoInputAhead : Obligations.RunIsLinearAndReadsNoInputAhead := by
  unfold Obligations.RunIsLinearAndReadsNoInputAhead
  exact ⟨fun _ _ _ => Reaches.linear, fun _ _ _ => Reaches.with_more_input⟩

/-! ### Runs under fuel -/

section
variable {s t u : State}

/-- One step more. -/
theorem stepsFor_concat {n : Nat} (h : stepsFor n s = t) (ht : step t = .next u) :
    stepsFor (n + 1) s = u := by
  rw [(counted_run_append h ht 1).1, stepsFor_succ ht, stepsFor_zero]

theorem reaches_stepsFor (n : Nat) (s : State) : Reaches s (stepsFor n s) := by
  induction n generalizing s with
  | zero => exact .refl s
  | succ n ih =>
    rw [stepsFor]
    cases h : step s with
    | next t => exact (Reaches.single h).trans (ih t)
    | fault _ => exact .refl s
    | refused _ => exact .refl s

theorem Reaches.exists_stepsFor (h : Reaches s t) : ∃ n, stepsFor n s = t := by
  induction h with
  | refl => exact ⟨0, rfl⟩
  | tail _ hu ih =>
    obtain ⟨n, hn⟩ := ih
    exact ⟨n + 1, stepsFor_concat hn hu⟩

end

/-- Settles O37. -/
theorem fuelRunsAreTheRun : Obligations.FuelRunsAreTheRun := by
  unfold Obligations.FuelRunsAreTheRun
  exact fun s t => ⟨Reaches.exists_stepsFor, fun ⟨n, hn⟩ => hn ▸ reaches_stepsFor n s⟩

/-! ### The three outcomes -/

section
variable {s : State}

/-- A run halts with what stands in `out` at its end. -/
theorem haltsWith_iff {o : List Byte} :
    HaltsWith s o ↔ ∃ t, Reaches s t ∧ t.runState = .halted ∧ o = t.out := by
  simp only [HaltsWith, result?_eq_some_iff]

theorem FaultsWith.exists_faulted {r : FailureReport} (h : FaultsWith s r) :
    ∃ t, Reaches s t ∧ t.runState = .faulted r.kind ∧ t.failure? = some r := by
  obtain ⟨t, ht, hr⟩ := h
  exact ⟨t, ht, (runState_faulted_iff t r.kind).mpr (failure?_eq_some_iff.mp hr).1, hr⟩

theorem exists_faultsWith_iff : (∃ r, FaultsWith s r) ↔ ∃ t, Reaches s t ∧ t.fault ≠ none := by
  simp only [FaultsWith, ← exists_failure?_iff]
  exact ⟨fun ⟨r, t, ht, hr⟩ => ⟨t, ht, r, hr⟩, fun ⟨t, ht, r, hr⟩ => ⟨r, t, ht, hr⟩⟩

/-- A run that does not stay Running comes to a Halted or a Faulted state. -/
theorem exists_outcome (s : State) :
    (∃ o, HaltsWith s o) ∨ (∃ r, FaultsWith s r) ∨ Diverges s := by
  by_cases hdiv : Diverges s
  · exact .inr (.inr hdiv)
  obtain ⟨t, ht, hend⟩ : ∃ t, Reaches s t ∧ t.runState ≠ .running := by
    simpa [Diverges] using hdiv
  cases hr : t.runState with
  | running => exact absurd hr hend
  | halted => exact .inl ⟨t.out, haltsWith_iff.mpr ⟨t, ht, hr, rfl⟩⟩
  | faulted k =>
    have hf := (runState_faulted_iff t k).mp hr
    exact .inr (.inl (exists_faultsWith_iff.mpr ⟨t, ht, by simp [hf]⟩))

end

/-- Settles O38: an outcome but divergence is read off the run's one end. -/
theorem everyRunHasOneOutcome : Obligations.EveryRunHasOneOutcome := by
  unfold Obligations.EveryRunHasOneOutcome
  refine fun s => ⟨exists_outcome s, fun o r ho hr => ?_, fun o ho hdiv => ?_,
    fun r hr hdiv => ?_, fun o o' ho ho' => ?_, fun r r' hr hr' => ?_, ?_⟩
  · obtain ⟨t, ht, hhalt, -⟩ := haltsWith_iff.mp ho
    obtain ⟨u, hu, hfault, -⟩ := hr.exists_faulted
    have heq := ht.end_unique hu (by simp [hhalt]) (by simp [hfault])
    rw [heq, hfault] at hhalt
    cases hhalt
  · obtain ⟨t, ht, hhalt, -⟩ := haltsWith_iff.mp ho
    cases hhalt.symm.trans (hdiv t ht)
  · obtain ⟨t, ht, hfault, -⟩ := hr.exists_faulted
    cases hfault.symm.trans (hdiv t ht)
  · obtain ⟨t, ht, hhalt, rfl⟩ := haltsWith_iff.mp ho
    obtain ⟨t', ht', hhalt', rfl⟩ := haltsWith_iff.mp ho'
    rw [ht.end_unique ht' (by simp [hhalt]) (by simp [hhalt'])]
  · obtain ⟨t, ht, hfault, hreport⟩ := hr.exists_faulted
    obtain ⟨t', ht', hfault', hreport'⟩ := hr'.exists_faulted
    rw [ht.end_unique ht' (by simp [hfault]) (by simp [hfault']), hreport'] at hreport
    exact (Option.some.inj hreport).symm
  · rw [← not_exists, exists_faultsWith_iff]
    simp [SafeRun]

/-! ### The port events -/

theorem outBytes_append (es fs : List PortEvent) :
    outBytes (es ++ fs) = outBytes es ++ outBytes fs := by
  induction es with
  | nil => rfl
  | cons e es ih => cases e <;> simp [outBytes, ih]

theorem inBytes_append (es fs : List PortEvent) :
    inBytes (es ++ fs) = inBytes es ++ inBytes fs := by
  induction es with
  | nil => rfl
  | cons e es ih => cases e <;> simp [inBytes, ih]

/-- The events `es` are what happened to the two streams from `s` to `t`. -/
def StreamsMove (es : List PortEvent) (s t : State) : Prop :=
  t.out = s.out ++ outBytes es ∧ s.inq = inBytes es ++ t.inq

theorem StreamsMove.refl (s : State) : StreamsMove [] s s := ⟨(List.append_nil _).symm, rfl⟩

theorem StreamsMove.trans {es fs : List PortEvent} {s t u : State} (h : StreamsMove es s t)
    (h' : StreamsMove fs t u) : StreamsMove (es ++ fs) s u := by
  obtain ⟨hout, hinq⟩ := h
  obtain ⟨hout', hinq'⟩ := h'
  exact ⟨by rw [hout', hout, outBytes_append, List.append_assoc],
    by rw [hinq, hinq', inBytes_append, List.append_assoc]⟩

section
variable {i : Instr} {s t : State}

theorem instrEvents_of_no_port (hin : i ≠ .input) (hout : i ≠ .output) : instrEvents i s = [] := by
  cases i with
  | input => exact absurd rfl hin
  | output => exact absurd rfl hout
  | _ => rfl

theorem execInput_streamsMove (h : execInput s = .next t) :
    StreamsMove (instrEvents .input s) s t := by
  obtain ⟨hq, rfl⟩ | ⟨b, rest, hq, -, rfl⟩ | ⟨b, rest, hq, -, rfl⟩ := execInput_cases h <;>
    simp [StreamsMove, instrEvents, inputAnswer, hq, outBytes, inBytes]

theorem execOutput_streamsMove (h : execOutput s = .next t) :
    StreamsMove (instrEvents .output s) s t := by
  obtain ⟨hd, rfl⟩ | ⟨hd, rfl⟩ := execOutput_cases h
  · simp [StreamsMove, instrEvents, effectiveAddress, memRead_of_le hd, outBytes, inBytes]
  · simp [StreamsMove, instrEvents, effectiveAddress, memRead_of_lt hd, outBytes, inBytes]

/-- R104, R105: only input and output have events, and only they touch the streams. -/
theorem exec_streamsMove (h : exec i s = .next t) : StreamsMove (instrEvents i s) s t := by
  by_cases hin : i = .input
  · subst hin
    exact execInput_streamsMove h
  by_cases hout : i = .output
  · subst hout
    exact execOutput_streamsMove h
  have hinq : t.inq = s.inq := by
    by_contra hne
    exact hin ((exec_form h).inq_changed hne)
  rw [instrEvents_of_no_port hin hout]
  exact ⟨by rw [exec_out_of_ne_output hout h]; simp [outBytes], hinq.symm⟩

theorem step_streamsMove (h : step s = .next t) : StreamsMove (stepEvents s) s t := by
  obtain ⟨hf, b, hb, he⟩ := step_next h
  obtain ⟨hi, rfl⟩ := List.getElem?_eq_some_iff.mp hb
  have hevents : stepEvents s = instrEvents (decodeByte s.program[s.ip]) s := by
    simp only [stepEvents, hf, fetchBytes_of_lt hi, decode_cons]
  rw [hevents]
  exact exec_streamsMove he

end

/-- Settles O39, step by step. -/
theorem portEventsMatchTheStreams : Obligations.PortEventsMatchTheStreams := by
  unfold Obligations.PortEventsMatchTheStreams
  intro n
  induction n with
  | zero => exact StreamsMove.refl
  | succ n ih =>
    intro s
    rw [stepsFor, runEvents]
    cases h : step s with
    | next t => exact (step_streamsMove h).trans (ih t)
    | fault _ => exact StreamsMove.refl s
    | refused _ => exact StreamsMove.refl s

/-! ### Programs of no-operations -/

/-- A step at a symbol that is none of the eight operations' is the advance (R108). -/
theorem step_of_nop {s : State} {b : Byte} (hf : s.fault = none) (hb : s.prog s.ip = some b)
    (hn : b ∉ operationSymbols) : step s = .next (advance s) := by
  rw [step_of_prog hf hb, decodeByte_of_not_mem_operationSymbols hn, exec_nop]

/-- Settles O40: each step is the advance of one no-operation. -/
theorem nopProgramsHalt : Obligations.NopProgramsHalt := by
  unfold Obligations.NopProgramsHalt
  intro l hl
  have hrun : ∀ n ≤ l.program.length,
      stepsFor n (State.resetWith l) = (State.resetWith l).setIp n := by
    intro n hn
    induction n with
    | zero => rfl
    | succ n ih =>
      refine stepsFor_concat (ih (Nat.le_of_succ_le hn)) ?_
      exact step_of_nop (s := (State.resetWith l).setIp n) rfl (List.getElem?_eq_getElem hn)
        (hl _ (List.getElem_mem hn))
  refine ⟨hrun, haltsWith_iff.mpr ⟨_, reaches_stepsFor l.program.length _, ?_, ?_⟩⟩
  · rw [hrun _ (le_refl _), runState_halted_iff]
    exact ⟨rfl, le_refl _⟩
  · rw [hrun _ (le_refl _)]
    rfl

end Sys2Proof.Machine
end

section
/-! Proofs about the host's side (10_state.md sections 7 and 12, 70_reset_and_hazards.md): what a
reset leaves, what is placed for the next fetch, and what is read at the end. -/

namespace Sys2Proof.Machine

/-- Settles O41: each component is the launch's or its reset value, and the run state is read
off the length of the Program. -/
theorem resetValues : Obligations.ResetValues := by
  unfold Obligations.ResetValues
  intro l before
  refine ⟨rfl, rfl, fun _ => rfl, rfl, rfl, rfl, rfl, rfl, rfl, rfl, ?_, ?_⟩
  · rw [runState_running_iff, hostReset_eq]
    simp
  · rw [runState_halted_iff, hostReset_eq]
    simp

/-- Settles O43. -/
theorem resetMachineIsHalted : Obligations.ResetMachineIsHalted := by
  unfold Obligations.ResetMachineIsHalted
  have hhalt : State.reset.runState = .halted := (runState_halted_iff _).mpr ⟨rfl, le_refl 0⟩
  exact ⟨rfl, hhalt, result?_eq_some_iff.mpr ⟨hhalt, rfl⟩, step_of_halted hhalt⟩

/-! ### The word placed for the next fetch -/

/-- The symbol placed at `ip` is the symbol at `ip`: as many stand before it. -/
theorem placeSymbol_prog (b : Byte) (s : State) : (placeSymbol b s).prog s.ip = some b := by
  have hlen : (s.program.take s.ip ++ List.replicate (s.ip - s.program.length) 0).length =
      s.ip := by
    rw [List.length_append, List.length_take, List.length_replicate]
    omega
  simp only [placeSymbol, State.prog, State.setFault_program, State.setProgram_program]
  rw [List.getElem?_append_right (Nat.le_of_eq hlen), hlen, Nat.sub_self, List.getElem?_cons_zero]

/-- A word of 8 bits is the symbol it decodes as. -/
theorem decodeTableWord_eight (w : Nat) :
    decodeTableWord 8 w = some (decodeByte (tableSymbol 8 w)) := by
  rw [decodeTableWord, if_pos (Nat.mod_lt w (by decide)), decode_cons]

/-- Settles O44: with no fault recorded the step executes the symbol placed at `ip`. -/
theorem fetchWordIsRunNext : Obligations.FetchWordIsRunNext := by
  unfold Obligations.FetchWordIsRunNext
  intro s w _
  exact ⟨rfl, _, decodeTableWord_eight w, decodeByte_wf _,
    step_of_prog (s := s.withFetchWord 8 w) rfl (placeSymbol_prog _ s)⟩

/-! ### What the host reads at the end -/

/-- No kind has the code of no fault, and no two kinds share a code (R18). -/
theorem FaultKind.code_ne_zero (k : FaultKind) : k.code ≠ 0 := by
  cases k <;> decide

theorem FaultKind.code_injective : Function.Injective FaultKind.code := by
  intro k k'
  cases k <;> cases k' <;> decide

theorem faultCode_eq_zero_iff {s : State} : s.fault = none ↔ s.faultCode = 0 := by
  unfold State.faultCode
  cases s.fault with
  | none => simp
  | some k => exact iff_of_false (Option.some_ne_none k) k.code_ne_zero

theorem faultCode_eq_code_iff {s : State} {k : FaultKind} :
    s.fault = some k ↔ s.faultCode = k.code := by
  unfold State.faultCode
  cases s.fault with
  | none => exact iff_of_false (Option.some_ne_none k).symm k.code_ne_zero.symm
  | some k' => simp [FaultKind.code_injective.eq_iff]

/-- Settles O45: Halted with `ip` within the Program means at its end. -/
theorem hostReadsTheEnd : Obligations.HostReadsTheEnd := by
  unfold Obligations.HostReadsTheEnd
  intro s hip
  refine ⟨fun o => ?_, fun _ => failure?_eq_some_iff, faultCode_eq_zero_iff,
    fun _ => faultCode_eq_code_iff⟩
  rw [result?_eq_some_iff, runState_halted_iff, hip.ge_iff_eq, and_assoc]

end Sys2Proof.Machine
end

section
/-! Proof about counted loops (43_loop_control.md section 4): between two tests of the loop the
run stays within the body, behind its first symbol, so each pass starts that symbol once and
comes to the loop-close once. -/

namespace Sys2Proof.Machine

/-! ### Within the body -/

section
variable {x y : State} {o c : Nat} {below : List Nat}

/-- Before the loop-close at `c` no symbol closes the loop from `o` to `c`. -/
theorem closesAbove_of_ne (hpair : Paired x.program o c) (hne : x.ip ≠ c) :
    ClosesAbove below (unpairedBefore x.program (o + 1)) x := by
  intro hclose htext
  have ho := (paired_iff.mp hpair).1
  have htop : Paired x.program o x.ip :=
    ⟨hclose, by rw [htext, unpairedBefore_succ_open ho, List.getLast?_concat]⟩
  exact absurd (htop.unique hpair) hne

/-- A step within the body keeps the loop open and stays behind the first symbol. -/
theorem body_step (hpair : Paired x.program o c)
    (hx : StackMatchesAbove below (unpairedBefore x.program (o + 1)) x) (hne : x.ip ≠ c)
    (h : step x = .next y) :
    StackMatchesAbove below (unpairedBefore y.program (o + 1)) y ∧
      (y.fault = none → o + 1 < y.ip) := by
  have hclose := closesAbove_of_ne (below := below) hpair hne
  refine ⟨step_program h ▸ hx.after_step hclose h, ?_⟩
  obtain ⟨inner, -, htext⟩ := id hx
  have ho : o ∈ unpairedBefore x.program x.ip := by
    rw [htext, unpairedBefore_succ_open (paired_iff.mp hpair).1]
    simp
  exact (hx.open_after_step hclose h ho fun htop => hne (htop.unique hpair)).2

/-- A run that ends with no fault recorded starts with none. -/
theorem fault_none_of_stepsFor {m : Nat} (h : (stepsFor m x).fault = none) : x.fault = none := by
  by_contra hf
  have hstop : x.runState ≠ .running := fun hr => hf ((runState_running_iff x).mp hr).1
  rw [(reaches_stepsFor m x).eq_of_not_running hstop] at h
  exact hf h

/-- Until it comes to the loop-close, a run behind the first symbol of the body does not start
that symbol. -/
theorem visits_body_eq_zero {m : Nat} (hpair : Paired x.program o c)
    (hx : StackMatchesAbove below (unpairedBefore x.program (o + 1)) x) (hlt : o + 1 < x.ip)
    (hclose : visits c m x = 0) (hf : (stepsFor m x).fault = none) :
    visits (o + 1) m x = 0 := by
  induction m generalizing x with
  | zero => rfl
  | succ m ih =>
    have hne : x.ip ≠ c := by
      intro heq
      rw [visits, if_pos heq] at hclose
      omega
    cases h : step x with
    | next y =>
      rw [visits_succ h, if_neg hne, Nat.zero_add] at hclose
      rw [stepsFor_succ h] at hf
      obtain ⟨hy, hlt'⟩ := body_step hpair hx hne h
      rw [visits_succ h, if_neg hlt.ne', Nat.zero_add]
      exact ih (step_program h ▸ hpair) hy (hlt' (fault_none_of_stepsFor hf)) hclose hf
    | fault _ => simp only [visits, h, if_neg hlt.ne']
    | refused _ => simp only [visits, h, if_neg hlt.ne']

end

/-! ### One pass -/

/-- At the first symbol of the body, with the loop entered. -/
def BeginsPass (o d : Nat) (below : List Nat) (x : State) : Prop :=
  x.ip = o + 1 ∧ x.dp = d ∧ x.ls = below ++ [o] ∧ x.fault = none

/-- `m` steps from `x` to `w` run the body once, from its first symbol to the loop-close. -/
structure RunsBody (o c d : Nat) (below : List Nat) (m : Nat) (x w : State) : Prop where
  run         : stepsFor m x = w
  bodyVisits  : visits (o + 1) m x = 1
  closeVisits : visits c m x = 0
  ip          : w.ip = c
  dp          : w.dp = d
  ls          : w.ls = below ++ [o]
  fault       : w.fault = none
  cell        : (w.cell d).toNat = ((x.cell d).toNat + 255) % 256

/-- What `CountedLoopRunsItsPasses` asks of the body of the loop. -/
def BodyCountsDown (s : State) (o c d : Nat) : Prop :=
  ∀ u : State, Reaches s u → u.ip = o + 1 → u.dp = d → u.ls = s.ls ++ [o] → u.fault = none →
    ∃ w m, stepsFor m u = w ∧ visits c m u = 0 ∧ w.ip = c ∧ w.dp = d ∧ w.ls = s.ls ++ [o] ∧
      w.fault = none ∧ (w.cell d).toNat = ((u.cell d).toNat + 255) % 256

section
variable {s x w y t : State} {o c d : Nat} {below : List Nat}

/-- A run that lowers a cell takes a step. -/
theorem exists_succ_of_cell_lowered {m : Nat}
    (h : ((stepsFor m x).cell d).toNat = ((x.cell d).toNat + 255) % 256) :
    ∃ k y, m = k + 1 ∧ step x = .next y := by
  have hlt : (x.cell d).toNat < 256 := (x.cell d).isLt
  cases m with
  | zero =>
    rw [stepsFor_zero] at h
    omega
  | succ k =>
    cases hy : step x with
    | next y => exact ⟨k, y, rfl, rfl⟩
    | fault _ =>
      simp only [stepsFor, hy] at h
      omega
    | refused _ =>
      simp only [stepsFor, hy] at h
      omega

/-- A pass starts the first symbol of the body once, at its beginning. -/
theorem BodyCountsDown.runsBody (h : BodyCountsDown s o c d) (hpair : Paired s.program o c)
    (hsx : Reaches s x) (hx : BeginsPass o d s.ls x) : ∃ w m, RunsBody o c d s.ls m x w := by
  obtain ⟨hip, hdp, hls, hf⟩ := hx
  obtain ⟨w, m, rfl, hclose, hip', hdp', hls', hf', hcell⟩ := h x hsx hip hdp hls hf
  refine ⟨_, m, rfl, ?_, hclose, hip', hdp', hls', hf', hcell⟩
  obtain ⟨k, y, rfl, hy⟩ := exists_succ_of_cell_lowered hcell
  have hpair' : Paired x.program o c := hsx.launch_eq.1.symm ▸ hpair
  have hmatch : StackMatchesAbove (s.ls ++ [o]) (unpairedBefore x.program (o + 1)) x :=
    ⟨[], by rw [hls, List.append_nil], by rw [hip, List.append_nil]⟩
  have hne : x.ip ≠ c := by
    intro heq
    rw [visits_succ hy, if_pos heq] at hclose
    omega
  rw [visits_succ hy, if_neg hne, Nat.zero_add] at hclose
  rw [stepsFor_succ hy] at hf'
  obtain ⟨hmatch', hlt⟩ := body_step hpair' hmatch hne hy
  rw [visits_succ hy, if_pos hip, visits_body_eq_zero (step_program hy ▸ hpair') hmatch'
    (hlt (fault_none_of_stepsFor hf')) hclose hf']

/-! ### The test of the loop -/

/-- Just after the test of a loop, by its loop-open or its loop-close: out of the loop with a
zero cell, and else at the beginning of a pass. -/
def AfterTest (o c d : Nat) (below : List Nat) (x : State) : Prop :=
  (x.cell d = 0 ∧ x.ip = c + 1 ∧ x.dp = d ∧ x.ls = below ∧ x.fault = none) ∨
    (x.cell d ≠ 0 ∧ BeginsPass o d below x)

/-- The loop-open tests the cell. -/
theorem step_loopOpen_afterTest (hpair : Paired s.program s.ip c) (hd : s.dp < s.tapeSize)
    (hf : s.fault = none) :
    ∃ x, step s = .next x ∧ AfterTest s.ip c s.dp s.ls x ∧ x.cell s.dp = s.cell s.dp := by
  obtain ⟨ho, hm⟩ := paired_iff.mp hpair
  have hstep : step s = exec .loopOpen s :=
    (step_of_prog hf ho).trans (congrArg (exec · s) (decodeByte_encodeByte (i := .loopOpen) rfl))
  by_cases hz : s.cell s.dp = 0
  · exact ⟨_, hstep.trans (exec_loopOpen_skip hd hz hm), .inl ⟨hz, rfl, rfl, rfl, hf⟩, rfl⟩
  · exact ⟨_, hstep.trans (exec_loopOpen_enter hd hz), .inr ⟨hz, rfl, rfl, rfl, hf⟩, rfl⟩

/-- The loop-close tests it again after each pass. -/
theorem RunsBody.step_afterTest {m : Nat} (h : RunsBody o c d below m x w)
    (hc : w.program[c]? = some opLoopClose) (hd : d < w.tapeSize) :
    ∃ y, step w = .next y ∧ AfterTest o c d below y ∧ y.cell d = w.cell d := by
  obtain ⟨-, -, -, rfl, rfl, hls, hf, -⟩ := h
  have hstep := step_at_loopClose hf hc
  by_cases hz : w.cell w.dp = 0
  · refine ⟨_, hstep.trans (exec_loopClose_exit hd hz), .inl ⟨hz, rfl, rfl, ?_, hf⟩, rfl⟩
    rw [advance_ls, State.setLs_ls, hls, List.dropLast_concat]
  · exact ⟨_, hstep.trans (exec_loopClose_jumpBack hd hz hls), .inr ⟨hz, rfl, rfl, hls, hf⟩, rfl⟩

/-! ### All passes -/

/-- `n` steps from `x`, just after a test with `v` in the cell, to `t`: the loop is left after
exactly `v` passes, which begin with `v`, `v - 1`, down to 1. -/
structure RunsPasses (o c d : Nat) (below : List Nat) (v n : Nat) (x t : State) : Prop where
  run         : stepsFor n x = t
  ip          : t.ip = c + 1
  dp          : t.dp = d
  ls          : t.ls = below
  fault       : t.fault = none
  cell        : t.cell d = 0
  bodyVisits  : visits (o + 1) n x = v
  closeVisits : visits c n x = v
  values      : ∀ k, k < v → ∃ u, Reaches x u ∧ Reaches u t ∧ u.ip = o + 1 ∧ u.dp = d ∧
    u.ls = below ++ [o] ∧ (u.cell d).toNat = v - k

/-- One pass, and the passes after it. -/
theorem RunsPasses.cons {v m n : Nat} (hx : BeginsPass o d below x)
    (hv : (x.cell d).toNat = v + 1) (hbody : RunsBody o c d below m x w) (hoc : o + 1 ≠ c)
    (hwy : step w = .next y) (h : RunsPasses o c d below v n y t) :
    RunsPasses o c d below (v + 1) (m + (n + 1)) x t := by
  obtain ⟨hrun, hvisits⟩ := counted_run_append hbody.run hwy (n + 1)
  obtain ⟨hip, hdp, hls, -⟩ := hx
  have hxy : Reaches x y := (hbody.run ▸ reaches_stepsFor m x : Reaches x w).tail hwy
  have hyt : Reaches y t := h.run ▸ reaches_stepsFor n y
  exact {
    run := by rw [hrun, stepsFor_succ hwy, h.run]
    ip := h.ip
    dp := h.dp
    ls := h.ls
    fault := h.fault
    cell := h.cell
    bodyVisits := by
      rw [hvisits, hbody.bodyVisits, visits_succ hwy, hbody.ip, if_neg hoc.symm, h.bodyVisits]
      omega
    closeVisits := by
      rw [hvisits, hbody.closeVisits, visits_succ hwy, if_pos hbody.ip, h.closeVisits]
      omega
    values := by
      rintro (_ | k) hk
      · exact ⟨x, .refl x, hxy.trans hyt, hip, hdp, hls, hv⟩
      · obtain ⟨u, hyu, hut, hu⟩ := h.values k (Nat.lt_of_succ_lt_succ hk)
        rw [Nat.add_sub_add_right]
        exact ⟨u, hxy.trans hyu, hut, hu⟩ }

/-- The passes of the loop, by induction on the value at the test. -/
theorem BodyCountsDown.runsPasses (h : BodyCountsDown s o c d) (hpair : Paired s.program o c)
    (hd : d < s.tapeSize) {v : Nat} (hsx : Reaches s x) (hx : AfterTest o c d s.ls x)
    (hv : (x.cell d).toNat = v) : ∃ n t, RunsPasses o c d s.ls v n x t := by
  induction v generalizing x with
  | zero =>
    have hz : x.cell d = 0 := BitVec.eq_of_toNat_eq hv
    obtain ⟨-, hip, hdp, hls, hf⟩ | ⟨hne, -⟩ := hx
    · exact ⟨0, x, rfl, hip, hdp, hls, hf, hz, rfl, rfl, fun k hk => absurd hk (Nat.not_lt_zero k)⟩
    · exact absurd hz hne
  | succ v ih =>
    obtain ⟨hz, -⟩ | ⟨-, hbegin⟩ := hx
    · simp [hz] at hv
    obtain ⟨w, m, hbody⟩ := h.runsBody hpair hsx hbegin
    have hsw : Reaches s w := hsx.trans (hbody.run ▸ reaches_stepsFor m x)
    obtain ⟨hprogram, hsize⟩ := hsw.launch_eq
    obtain ⟨y, hwy, hy, hcell⟩ := hbody.step_afterTest (hprogram.symm ▸ hpair.1) (hsize.symm ▸ hd)
    have hyv : (y.cell d).toNat = v := by
      have := (x.cell d).isLt
      rw [hcell, hbody.cell, hv]
      omega
    obtain ⟨n, t, hpasses⟩ := ih (hsw.tail hwy) hy hyv
    have hoc : o + 1 ≠ c := by
      rintro rfl
      cases hbody.bodyVisits.symm.trans hbody.closeVisits
    exact ⟨_, t, hpasses.cons hbegin hv hbody hoc hwy⟩

end

/-- Settles O55: the test by the loop-open, and then the passes. -/
theorem countedLoopRunsItsPasses : Obligations.CountedLoopRunsItsPasses := by
  unfold Obligations.CountedLoopRunsItsPasses
  rintro s _ c _ hpair rfl rfl hd hf hbody
  have hbody : BodyCountsDown s s.ip c s.dp := hbody
  obtain ⟨x, hsx, hx, hcell⟩ := step_loopOpen_afterTest hpair hd hf
  obtain ⟨n, t, h⟩ := hbody.runsPasses hpair hd (.single hsx) hx rfl
  rw [hcell] at h
  have hvisits : ∀ p, s.ip < p → visits p (n + 1) s = visits p n x := fun p hp => by
    rw [visits_succ hsx, if_neg hp.ne, Nat.zero_add]
  refine ⟨n + 1, t, (stepsFor_succ hsx n).trans h.run, h.ip, h.dp, h.ls, h.fault, h.cell,
    (hvisits _ (Nat.lt_succ_self _)).trans h.bodyVisits,
    (hvisits _ hpair.lt).trans h.closeVisits, fun k hk => ?_⟩
  obtain ⟨u, hxu, hu⟩ := h.values k hk
  exact ⟨u, (Reaches.single hsx).trans hxu, hu⟩

end Sys2Proof.Machine
end
